-- ==== Sys2Proof/Word.lean ====
section
/-! DEFINITION. The words of the machine (00_scope.md R7, R9): bytes, 16-bit words, register and key numbers.
Every value is unsigned (R10). -/

namespace Sys2Proof

/-- An 8-bit value: a general register, a timer, a memory cell, an immediate kk (R7). -/
abbrev Byte := BitVec 8

/-- A 16-bit value: I, pc, a stack entry, an instruction word (R7). -/
abbrev Word := BitVec 16

/-- A general register's number 0..15 (R21). -/
abbrev Reg := Fin 16

/-- A key's number 0..15 (R32). -/
abbrev Key := Fin 16

/-- VF, register 15 (R14, R22). -/
abbrev VF : Reg := 15

end Sys2Proof
end

