-- ==== Sys2Proof/Config.lean ====
section
/-! DEFINITION. What is fixed for this hardware (00_scope.md R7), its named parameters (R8), and the one free value. -/

namespace Sys2Proof.Config

/-- 4096 bytes of memory, addresses 0x000..0xFFF (R7, R46). -/
def memSize : Nat := 0x1000

/-- The font region's first address (R48). -/
def fontBase : Nat := 0x000

/-- 16 glyphs of 5 bytes (R48). -/
def fontLength : Nat := 80

/-- The program base and entry point (R7, R24, R48). -/
def programBase : Nat := 0x200

/-- The longest program (R7, R62). -/
def maxProgramLength : Nat := 3584

/-- The largest legal SP (R25). -/
def maxSP : Nat := 15

/-- The parameter FONT at its default (R8, 92_eei_decisions.md D18). The source fixes glyph 0 only.
PRESUMED for glyphs 1 to F, as the spec itself marks them (log 5): unsafe. LoadFont takes the table as an argument,
so nothing but a claim that names this default depends on it. -/
def defaultFont : List Byte :=
  [0xF0, 0x90, 0x90, 0x90, 0xF0, 0x20, 0x60, 0x20, 0x20, 0x70, 0xF0, 0x10, 0xF0, 0x80, 0xF0, 0xF0, 0x10, 0xF0, 0x10, 0xF0] ++
  [0x90, 0x90, 0xF0, 0x10, 0x10, 0xF0, 0x80, 0xF0, 0x10, 0xF0, 0xF0, 0x80, 0xF0, 0x90, 0xF0, 0xF0, 0x10, 0x20, 0x40, 0x40] ++
  [0xF0, 0x90, 0xF0, 0x90, 0xF0, 0xF0, 0x90, 0xF0, 0x10, 0xF0, 0xF0, 0x90, 0xF0, 0x90, 0x90, 0xE0, 0x90, 0xE0, 0x90, 0xE0] ++
  [0xF0, 0x80, 0x80, 0x80, 0xF0, 0xE0, 0x90, 0x90, 0x90, 0xE0, 0xF0, 0x80, 0xF0, 0x80, 0xF0, 0xF0, 0x80, 0xF0, 0x80, 0x80]

/-- CLOCK_HZ, informative only (R8, R236): nothing reads it. -/
def clockHz : Nat := 500

/-- TIMER_HZ, informative only (R8, R236): nothing reads it. -/
def timerHz : Nat := 60

/-- RandOracle (R8, R131, D17): the byte the host supplies for the k-th execution of Cxkk. A FREE VALUE: it has no
body, so nothing can evaluate it or prove a value of it. DESIGN CHOICE of form (log 3): safe. -/
opaque randOracle : Nat → Byte

end Sys2Proof.Config
end

