-- ==== Sys2Proof/Syntax.lean ====
section
/-! DEFINITION. The syntax whole: one constructor per row of spec/opcode_table.json, in the table's order
(30_encoding.md R74), and the host's actions (60_exceptions.md R207). Operand widths are those of R72 and stand in the
types. -/

namespace Sys2Proof

/-- The 34 defined instructions (R74). A word that spells none of them is UNKNOWN (R77) and is no instruction. -/
inductive Instr where
  /-- 00E0 CLS (R168) -/
  | cls
  /-- 00EE RET (R100) -/
  | ret
  /-- 1nnn JP nnn (R101) -/
  | jp (nnn : BitVec 12)
  /-- 2nnn CALL nnn (R102) -/
  | call (nnn : BitVec 12)
  /-- 3xkk SE Vx, kk (R104) -/
  | seImm (x : Reg) (kk : Byte)
  /-- 4xkk SNE Vx, kk (R105) -/
  | sneImm (x : Reg) (kk : Byte)
  /-- 5xy0 SE Vx, Vy (R106) -/
  | seReg (x y : Reg)
  /-- 9xy0 SNE Vx, Vy (R107) -/
  | sneReg (x y : Reg)
  /-- 6xkk LD Vx, kk (R120) -/
  | ldImm (x : Reg) (kk : Byte)
  /-- 7xkk ADD Vx, kk (R121) -/
  | addImm (x : Reg) (kk : Byte)
  /-- 8xy0 LD Vx, Vy (R122) -/
  | ldReg (x y : Reg)
  /-- 8xy1 OR Vx, Vy (R123) -/
  | orReg (x y : Reg)
  /-- 8xy2 AND Vx, Vy (R124) -/
  | andReg (x y : Reg)
  /-- 8xy3 XOR Vx, Vy (R125) -/
  | xorReg (x y : Reg)
  /-- 8xy4 ADD Vx, Vy (R126) -/
  | addReg (x y : Reg)
  /-- 8xy5 SUB Vx, Vy (R127) -/
  | subReg (x y : Reg)
  /-- 8xy6 SHR Vx (R128): the encoding carries y and the instruction ignores it. -/
  | shr (x y : Reg)
  /-- 8xy7 SUBN Vx, Vy (R129) -/
  | subnReg (x y : Reg)
  /-- 8xyE SHL Vx (R130): the encoding carries y and the instruction ignores it. -/
  | shl (x y : Reg)
  /-- Annn LD I, nnn (R150) -/
  | ldI (nnn : BitVec 12)
  /-- Bnnn JP V0, nnn (R103) -/
  | jpV0 (nnn : BitVec 12)
  /-- Cxkk RND Vx, kk (R131) -/
  | rnd (x : Reg) (kk : Byte)
  /-- Dxyn DRW Vx, Vy, n (R169): n is a count of rows 0..15. -/
  | drw (x y : Reg) (n : Fin 16)
  /-- Ex9E SKP Vx (R180) -/
  | skp (x : Reg)
  /-- ExA1 SKNP Vx (R181) -/
  | sknp (x : Reg)
  /-- Fx07 LD Vx, DT (R182) -/
  | ldVxDT (x : Reg)
  /-- Fx0A LD Vx, K (R183) -/
  | ldVxK (x : Reg)
  /-- Fx15 LD DT, Vx (R184) -/
  | ldDTVx (x : Reg)
  /-- Fx18 LD ST, Vx (R185) -/
  | ldSTVx (x : Reg)
  /-- Fx1E ADD I, Vx (R151) -/
  | addI (x : Reg)
  /-- Fx29 LD F, Vx (R152) -/
  | ldF (x : Reg)
  /-- Fx33 LD B, Vx (R153) -/
  | ldB (x : Reg)
  /-- Fx55 LD [I], Vx (R154) -/
  | storeRegs (x : Reg)
  /-- Fx65 LD Vx, [I] (R155) -/
  | loadRegs (x : Reg)
  deriving DecidableEq, Repr

/-- The host's atomic actions (R207). The reads of fb, tone, diag and run change nothing and are plain functions of the
state. -/
inductive Action where
  /-- one fetch-decode-execute cycle (R82) -/
  | step
  /-- one timer countdown (R208) -/
  | tick
  /-- key k goes down: a level and a press event (R209) -/
  | keyDown (k : Key)
  /-- key k goes up (R210) -/
  | keyUp (k : Key)
  /-- LoadFont(f), f of 80 bytes (R61) -/
  | loadFont (f : List Byte)
  /-- LoadProgram(b, len), len the length of b (R62) -/
  | loadProgram (b : List Byte)
  deriving DecidableEq, Repr

end Sys2Proof
end

