-- ==== Sys2Proof/WellFormed.lean ====
section
/-! DEFINITION. Well-formedness of instructions and of the host's actions. -/

namespace Sys2Proof

/-- Every instruction of the syntax is well formed: the operand widths of 30_encoding.md R72 stand in the operands'
types (an x of 16 or an nnn of 0x1000 cannot be written), and no operand value is illegal in any format (R73). -/
def Instr.wellFormed : Instr → Bool
  | .cls => true | .ret => true | .jp _ => true | .call _ => true
  | .seImm _ _ => true | .sneImm _ _ => true | .seReg _ _ => true | .sneReg _ _ => true
  | .ldImm _ _ => true | .addImm _ _ => true | .ldReg _ _ => true | .orReg _ _ => true
  | .andReg _ _ => true | .xorReg _ _ => true | .addReg _ _ => true | .subReg _ _ => true
  | .shr _ _ => true | .subnReg _ _ => true | .shl _ _ => true | .ldI _ => true
  | .jpV0 _ => true | .rnd _ _ => true | .drw _ _ _ => true | .skp _ => true
  | .sknp _ => true | .ldVxDT _ => true | .ldVxK _ => true | .ldDTVx _ => true
  | .ldSTVx _ => true | .addI _ => true | .ldF _ => true | .ldB _ => true
  | .storeRegs _ => true | .loadRegs _ => true

/-- An action is well formed when LoadFont's table has its 80 bytes (20_memory.md R61). A program of any length is well
formed: one that is too long has a result of its own, RomTooLarge (R62). -/
def Action.wellFormed : Action → Bool
  | .loadFont f => f.length == Config.fontLength
  | .step => true | .tick => true | .keyDown _ => true | .keyUp _ => true | .loadProgram _ => true

end Sys2Proof
end

