-- ==== Sys2Proof/Decode.lean ====
section
/-! DEFINITION. Decoding (30_encoding.md R70 to R80), total on any word and any bytes, and after it the encoder.
Dispatch is two-level, as R76 has it: the top nibble, then n for family 8 (and 5, 9), kk for families E and F, and the
whole word for family 0. A word that matches no row is UNKNOWN (R77). -/

namespace Sys2Proof

/-! ## Bytes of a word (R9, R53): big-endian, the high byte first -/

/-- `hi ‖ lo` (R9): the high byte first. -/
def joinBytes (hi lo : Byte) : Word := hi ++ lo

/-- Bits 15:8 of a word. -/
def hiByte (w : Word) : Byte := w.extractLsb' 8 8

/-- Bits 7:0 of a word. -/
def loByte (w : Word) : Byte := w.extractLsb' 0 8

/-! ## Fields of a word (R72) -/

/-- op = w[15:12] -/
def opField (w : Word) : BitVec 4 := w.extractLsb' 12 4

/-- x = w[11:8] -/
def xField (w : Word) : Reg := (w.extractLsb' 8 4).toFin

/-- y = w[7:4] -/
def yField (w : Word) : Reg := (w.extractLsb' 4 4).toFin

/-- n = w[3:0] -/
def nField (w : Word) : BitVec 4 := w.extractLsb' 0 4

/-- kk = w[7:0] -/
def kkField (w : Word) : Byte := w.extractLsb' 0 8

/-- nnn = w[11:0] -/
def nnnField (w : Word) : BitVec 12 := w.extractLsb' 0 12

/-! ## The decoder -/

/-- What a word decodes to: one of the 34 instructions, or UNKNOWN (R75, R76). -/
inductive Decoded where
  /-- the word spells this instruction (R74) -/
  | known (i : Instr)
  /-- the word matches no row of R74 (R77): executed as R87 says -/
  | unknown (w : Word)
  deriving DecidableEq, Repr

/-- Family 0 is decoded on the whole word (R76, C3). -/
def decodeFamily0 (w : Word) : Decoded :=
  if w = 0x00E0 then .known .cls
  else if w = 0x00EE then .known .ret
  else .unknown w

/-- Family 5 requires w[3:0] = 0 (R76, D13). -/
def decodeFamily5 (w : Word) : Decoded :=
  if nField w = 0x0 then .known (.seReg (xField w) (yField w)) else .unknown w

/-- Family 9 requires w[3:0] = 0 (R76, D13). -/
def decodeFamily9 (w : Word) : Decoded :=
  if nField w = 0x0 then .known (.sneReg (xField w) (yField w)) else .unknown w

/-- Family 8 dispatches again on n (R76). -/
def decodeFamily8 (w : Word) : Decoded :=
  if nField w = 0x0 then .known (.ldReg (xField w) (yField w))
  else if nField w = 0x1 then .known (.orReg (xField w) (yField w))
  else if nField w = 0x2 then .known (.andReg (xField w) (yField w))
  else if nField w = 0x3 then .known (.xorReg (xField w) (yField w))
  else if nField w = 0x4 then .known (.addReg (xField w) (yField w))
  else if nField w = 0x5 then .known (.subReg (xField w) (yField w))
  else if nField w = 0x6 then .known (.shr (xField w) (yField w))
  else if nField w = 0x7 then .known (.subnReg (xField w) (yField w))
  else if nField w = 0xE then .known (.shl (xField w) (yField w))
  else .unknown w

/-- Family E dispatches again on kk (R76). -/
def decodeFamilyE (w : Word) : Decoded :=
  if kkField w = 0x9E then .known (.skp (xField w))
  else if kkField w = 0xA1 then .known (.sknp (xField w))
  else .unknown w

/-- Family F dispatches again on kk (R76). -/
def decodeFamilyF (w : Word) : Decoded :=
  if kkField w = 0x07 then .known (.ldVxDT (xField w))
  else if kkField w = 0x0A then .known (.ldVxK (xField w))
  else if kkField w = 0x15 then .known (.ldDTVx (xField w))
  else if kkField w = 0x18 then .known (.ldSTVx (xField w))
  else if kkField w = 0x1E then .known (.addI (xField w))
  else if kkField w = 0x29 then .known (.ldF (xField w))
  else if kkField w = 0x33 then .known (.ldB (xField w))
  else if kkField w = 0x55 then .known (.storeRegs (xField w))
  else if kkField w = 0x65 then .known (.loadRegs (xField w))
  else .unknown w

/-- The decoder (R76): a total function from 16-bit words to the 34 instructions plus UNKNOWN. -/
def decodeWord (w : Word) : Decoded :=
  if opField w = 0x0 then decodeFamily0 w
  else if opField w = 0x1 then .known (.jp (nnnField w))
  else if opField w = 0x2 then .known (.call (nnnField w))
  else if opField w = 0x3 then .known (.seImm (xField w) (kkField w))
  else if opField w = 0x4 then .known (.sneImm (xField w) (kkField w))
  else if opField w = 0x5 then decodeFamily5 w
  else if opField w = 0x6 then .known (.ldImm (xField w) (kkField w))
  else if opField w = 0x7 then .known (.addImm (xField w) (kkField w))
  else if opField w = 0x8 then decodeFamily8 w
  else if opField w = 0x9 then decodeFamily9 w
  else if opField w = 0xA then .known (.ldI (nnnField w))
  else if opField w = 0xB then .known (.jpV0 (nnnField w))
  else if opField w = 0xC then .known (.rnd (xField w) (kkField w))
  else if opField w = 0xD then .known (.drw (xField w) (yField w) (nField w).toFin)
  else if opField w = 0xE then decodeFamilyE w
  else decodeFamilyF w

/-- Why bytes decode to no instruction, by name. -/
inductive DecodeReject where
  /-- the first two bytes are an UNKNOWN word (R77); Step executes it as R87 says -/
  | unknownOpcode (w : Word)
  /-- fewer than the two bytes every instruction has (R70); no fetch gives so few -/
  | truncated (nbytes : Nat)
  deriving DecidableEq, Repr

/-- Decode the first instruction of a byte sequence, big-endian (R53, R70), and give back the bytes after it. -/
def decode : List Byte → Except DecodeReject (Instr × List Byte)
  | hi :: lo :: rest =>
    match decodeWord (joinBytes hi lo) with
    | .known i => .ok (i, rest)
    | .unknown w => .error (.unknownOpcode w)
  | short => .error (.truncated short.length)

/-- The instruction of an opcode-table row's word: w in nbits bits, the bits above them 0, laid out big-endian and given
to the decoder. -/
def decodeTableWord (nbits w : Nat) : Option Instr :=
  let word : Word := BitVec.ofNat 16 (w % 2 ^ nbits)
  match decode [hiByte word, loByte word] with
  | .ok (i, _) => some i
  | .error _ => none

/-! ## The encoder (R71, R74) -/

/-- Format A: `oooo nnnn nnnn nnnn`. -/
def formatA (op : BitVec 4) (nnn : BitVec 12) : Word := op ++ nnn

/-- Format XK: `oooo xxxx kkkk kkkk`. -/
def formatXK (op : BitVec 4) (x : Reg) (kk : Byte) : Word := op ++ (BitVec.ofFin x : BitVec 4) ++ kk

/-- Formats XY and XYN: `oooo xxxx yyyy ffff`. -/
def formatXYN (op : BitVec 4) (x y : Reg) (n : BitVec 4) : Word :=
  op ++ (BitVec.ofFin x : BitVec 4) ++ (BitVec.ofFin y : BitVec 4) ++ n

/-- The word of an instruction, from the match column of R74 and the field positions of R72. -/
def encode : Instr → Word
  | .cls => 0x00E0
  | .ret => 0x00EE
  | .jp nnn => formatA 0x1 nnn
  | .call nnn => formatA 0x2 nnn
  | .seImm x kk => formatXK 0x3 x kk
  | .sneImm x kk => formatXK 0x4 x kk
  | .seReg x y => formatXYN 0x5 x y 0x0
  | .sneReg x y => formatXYN 0x9 x y 0x0
  | .ldImm x kk => formatXK 0x6 x kk
  | .addImm x kk => formatXK 0x7 x kk
  | .ldReg x y => formatXYN 0x8 x y 0x0
  | .orReg x y => formatXYN 0x8 x y 0x1
  | .andReg x y => formatXYN 0x8 x y 0x2
  | .xorReg x y => formatXYN 0x8 x y 0x3
  | .addReg x y => formatXYN 0x8 x y 0x4
  | .subReg x y => formatXYN 0x8 x y 0x5
  | .shr x y => formatXYN 0x8 x y 0x6
  | .subnReg x y => formatXYN 0x8 x y 0x7
  | .shl x y => formatXYN 0x8 x y 0xE
  | .ldI nnn => formatA 0xA nnn
  | .jpV0 nnn => formatA 0xB nnn
  | .rnd x kk => formatXK 0xC x kk
  | .drw x y n => formatXYN 0xD x y (BitVec.ofFin n)
  | .skp x => formatXK 0xE x 0x9E
  | .sknp x => formatXK 0xE x 0xA1
  | .ldVxDT x => formatXK 0xF x 0x07
  | .ldVxK x => formatXK 0xF x 0x0A
  | .ldDTVx x => formatXK 0xF x 0x15
  | .ldSTVx x => formatXK 0xF x 0x18
  | .addI x => formatXK 0xF x 0x1E
  | .ldF x => formatXK 0xF x 0x29
  | .ldB x => formatXK 0xF x 0x33
  | .storeRegs x => formatXK 0xF x 0x55
  | .loadRegs x => formatXK 0xF x 0x65

/-- The two bytes of an instruction, high byte first (R53). -/
def encodeBytes (i : Instr) : List Byte := [hiByte (encode i), loByte (encode i)]

end Sys2Proof
end

