-- ==== Sys2Proof/Machine/State.lean ====
section
/-! DEFINITION. The state of the block, as plain data: the tuple of 10_state.md R20, field for field and under its
names, and one field of the model's own (randDraws). Reset is 70_reset_and_hazards.md R230. -/

namespace Sys2Proof.Machine

/-- Memory: the bytes that are not 0x00, as (address, byte) pairs in ONE canonical form (`Memory.wf`). An address that
is not listed reads as 0x00, the reset contents of 20_memory.md R46. -/
abbrev Memory := List Host.Cell

/-- What an unlisted address reads as: memory is "zero-initialized at construction" (R46). -/
def Memory.unlisted : Byte := 0x00

/-- The canonical form: addresses strictly rising, all of them inside the 4096 bytes of R46, and no entry equal to what
an unlisted address reads as. -/
abbrev Memory.wf (m : Memory) : Prop :=
  m.Pairwise (fun a b => a.1 < b.1) ∧ ∀ c ∈ m, c.1 < Config.memSize ∧ c.2 ≠ Memory.unlisted

/-- The framebuffer: 32 rows of 64 one-bit pixels (R30). Pixel (x, y) is entry x of row y; true is "on". -/
abbrev Framebuffer := Vector (Vector Bool 64) 32

/-- The error kinds (60_exceptions.md R200). -/
inductive ErrorKind where
  /-- non-fatal diagnostic: the execution of any UNKNOWN word -/
  | unknownOpcode
  /-- fatal: 2nnn with SP = 15 -/
  | stackOverflow
  /-- fatal: 00EE with SP = 0 -/
  | stackUnderflow
  /-- fatal: fetch, Dxyn, Fx33, Fx55 or Fx65 reaching an address ≥ 0x1000 -/
  | outOfRangeMemory
  /-- fatal: Ex9E or ExA1 with Vx > 15 -/
  | outOfRangeKey
  /-- load result: LoadProgram with len > 3584 -/
  | romTooLarge
  deriving DecidableEq, Repr

/-- A fatal fault's record (F, info) (10_state.md R37, R200): its kind, the fetch address A of the faulting instruction
or of the failed fetch, and the fault's own value. -/
inductive FaultRecord where
  /-- info (A, SP) -/
  | stackOverflow (A : Word) (sp : Byte)
  /-- info (A, SP) -/
  | stackUnderflow (A : Word) (sp : Byte)
  /-- info (A, the lowest out-of-range address) -/
  | outOfRangeMemory (A : Word) (addr : Nat)
  /-- info (A, Vx) -/
  | outOfRangeKey (A : Word) (key : Byte)
  deriving DecidableEq, Repr

/-- The execution sub-state (R31). -/
inductive Run where
  /-- Step fetches and executes -/
  | running
  /-- suspended in Fx0A, waiting for a key press to be stored in Vx -/
  | waitKey (x : Reg)
  /-- a fatal fault has been taken; only reset leaves this -/
  | halted (r : FaultRecord)
  deriving DecidableEq, Repr

/-- One UnknownOpcode report: the fetch address and the word (R34). -/
structure DiagEntry where
  A : Word
  w : Word
  deriving DecidableEq, Repr

/-- The complete state of the block (R20). -/
structure State where
  /-- 4096 bytes (R46) -/
  mem : Memory
  /-- V0..VF (R21) -/
  V : Vector Byte 16
  /-- the index register (R23) -/
  I : Word
  /-- the program counter (R24) -/
  pc : Word
  /-- the stack pointer, legal values 0..15 (R25) -/
  SP : Byte
  /-- the call stack (R26) -/
  stack : Vector Word 16
  /-- the delay timer (R28) -/
  DT : Byte
  /-- the sound timer (R29) -/
  ST : Byte
  /-- the framebuffer (R30) -/
  fb : Framebuffer
  /-- the execution sub-state (R31) -/
  run : Run
  /-- the key levels, keys[k] true when key k is down (R32) -/
  keys : Vector Bool 16
  /-- the UnknownOpcode log, oldest first (R34) -/
  diag : List DiagEntry
  /-- THE MODEL'S OWN field, not the spec's: how many bytes Cxkk has drawn from the free random source so far (log 3). -/
  randDraws : Nat
  deriving DecidableEq, Repr

/-- Stops that are not states of the spec's machine. The spec's own fatal faults are NOT here: taking one is a next
state with run = halted (R202, log 1). -/
inductive Fault where
  /-- raised by 2nnn and 00EE in a state whose SP is above 15, which the spec says SP never is (R25) and no run reaches.
  DESIGN CHOICE (log 2): safe, the machine stops. -/
  | illegalStackPointer (sp : Byte)
  deriving DecidableEq, Repr

/-- What the model refuses, by name. -/
inductive Refusal where
  /-- raised by an arm of exec whose instruction has no meaning yet; no arm is left so. Safe. -/
  | notModelled (mnemonic : String)
  /-- raised by LoadFont and LoadProgram after the first Step or Tick: "A model refuses them" (R231, D21). Safe. -/
  | loadAfterStart
  /-- raised by a second LoadFont of one launch (R231, D21). Safe. -/
  | fontLoadedTwice
  /-- raised by a second LoadProgram of one launch (R231, D21). Safe. -/
  | programLoadedTwice
  /-- raised by every action of a launch whose LoadProgram answered RomTooLarge: that launch does not run (R63, R231).
  Safe. -/
  | launchFailed
  /-- raised by LoadFont with a table that is not 80 bytes, which the action does not take (R61). Safe. -/
  | fontNotEightyBytes
  deriving DecidableEq, Repr

/-- The machine right after reset (R230): every field at the value R230 gathers; randDraws is the model's own (log 3,
DESIGN CHOICE). -/
def State.reset : State where
  mem := []
  V := Vector.replicate 16 0x00
  I := 0x0000
  pc := 0x0200
  SP := 0
  stack := Vector.replicate 16 0x0000
  DT := 0
  ST := 0
  fb := Vector.replicate 32 (Vector.replicate 64 false)
  run := .running
  keys := Vector.replicate 16 false
  diag := []
  randDraws := 0

end Sys2Proof.Machine
end

