-- ==== Sys2Proof/Machine/Ops.lean ====
section
/-! DEFINITION. The shared operations over registers and memory, and taking a fatal fault (60_exceptions.md R202).
An instruction's meaning is entered as 30_encoding.md R83 has it: pc is already A + 2. -/

namespace Sys2Proof.Machine

/-- How a meaning and a step end. -/
abbrev Result := Host.Outcome State Fault Refusal

/-! ## One accessor per state element (00_scope.md R11) -/

/-- `V[x]` -/
def State.reg (s : State) (x : Reg) : Byte := s.V[x]

/-- `V[x] <- b`. No register is hardwired or banked (R21). -/
def State.setReg (s : State) (x : Reg) (b : Byte) : State := { s with V := s.V.set x b }

/-- `I <- w` -/
def State.setI (s : State) (w : Word) : State := { s with I := w }

/-- `pc <- w` -/
def State.setPc (s : State) (w : Word) : State := { s with pc := w }

/-- `SP <- b` -/
def State.setSP (s : State) (b : Byte) : State := { s with SP := b }

/-- `stack[j] <- w` -/
def State.setStack (s : State) (j : Fin 16) (w : Word) : State := { s with stack := s.stack.set j w }

/-- `DT <- b` -/
def State.setDT (s : State) (b : Byte) : State := { s with DT := b }

/-- `ST <- b` -/
def State.setST (s : State) (b : Byte) : State := { s with ST := b }

/-- The whole framebuffer replaced by what a compositor operation gave. -/
def State.setFb (s : State) (fb : Framebuffer) : State := { s with fb := fb }

/-- `run <- r` -/
def State.setRun (s : State) (r : Run) : State := { s with run := r }

/-- `keys[k] <- down` -/
def State.setKey (s : State) (k : Key) (down : Bool) : State := { s with keys := s.keys.set k down }

/-- `KeyDown?(k)`: the level of key k (60_exceptions.md R207). -/
def State.keyIsDown (s : State) (k : Key) : Bool := s.keys[k]

/-- `Emit((A, w))`: append to the diagnostics log (R34). -/
def State.emit (s : State) (A w : Word) : State := { s with diag := s.diag ++ [⟨A, w⟩] }

/-- The whole memory replaced by what a memory operation gave. -/
def State.setMem (s : State) (m : Memory) : State := { s with mem := m }

/-- `Rand()`: the next byte of the free random source (R11, R131). -/
def State.randByte (s : State) : Byte := Config.randOracle s.randDraws

/-- One byte has been drawn: the next execution of Cxkk gets a fresh one (R131). -/
def State.countDraw (s : State) : State := { s with randDraws := s.randDraws + 1 }

/-- The output `tone` (R33): on exactly when ST ≠ 0. Not state. -/
def State.tone (s : State) : Bool := s.ST != 0

/-! ## Memory, byte by byte (20_memory.md) -/

/-- The byte at an address. -/
def Memory.read : Memory → Nat → Byte
  | [], _ => Memory.unlisted
  | (a, b) :: rest, k => if a = k then b else Memory.read rest k

/-- Set the byte at an address, keeping the canonical form: writing what an unlisted address reads as removes the
entry. -/
def Memory.write : Memory → Nat → Byte → Memory
  | [], k, v => if v = Memory.unlisted then [] else [(k, v)]
  | (a, b) :: rest, k, v =>
    if k < a then (if v = Memory.unlisted then (a, b) :: rest else (k, v) :: (a, b) :: rest)
    else if k = a then (if v = Memory.unlisted then rest else (k, v) :: rest)
    else (a, b) :: Memory.write rest k v

/-- The bytes at base..base+n-1, ascending (R55). -/
def Memory.readBytes (m : Memory) (base n : Nat) : List Byte := (List.range n).map fun k => m.read (base + k)

/-- Write bytes at base, base+1, …, ascending (R55). -/
def Memory.writeBytes : Memory → Nat → List Byte → Memory
  | m, _, [] => m
  | m, base, b :: bs => Memory.writeBytes (m.write base b) (base + 1) bs

/-- The range check of R52, made before anything is read or written: `some` fault when an address of base..base+n-1 is
≥ 0x1000, with the lowest such address. Addresses are exact sums, with no wrap (R50). An empty range cannot fault. -/
def rangeFault (A : Word) (base n : Nat) : Option FaultRecord :=
  if n = 0 ∨ base + n ≤ Config.memSize then none else some (.outOfRangeMemory A (max base Config.memSize))

/-- `MemRead(addr, 1)` (R50): the one-byte case of the range check, then the byte. -/
def memRead (A : Word) (addr : Nat) (s : State) : Except FaultRecord Byte :=
  match rangeFault A addr 1 with
  | some r => .error r
  | none => .ok (s.mem.read addr)

/-- `MemWrite(addr, 1, v)` (R51): the one-byte case of the range check, then the write. -/
def memWrite (A : Word) (addr : Nat) (v : Byte) (s : State) : Except FaultRecord State :=
  match rangeFault A addr 1 with
  | some r => .error r
  | none => .ok (s.setMem (s.mem.write addr v))

/-! ## Taking a fatal fault (R202) -/

/-- Taking fault r, given the state BEFORE the action: `run <- Halted(F, info)` is the only change. -/
def takeFault (r : FaultRecord) (before : State) : State := before.setRun (.halted r)

/-- A: the address the instruction was fetched from, while its handler runs and pc is A + 2 (R82, R83; log 4). -/
def State.fetchAddr (s : State) : Word := s.pc - 2

/-- `raise F(info)` in a handler. A handler checks before its first write, so the state before the action is the
handler's with the generic pc advance undone (R83, R202). The machine goes on, in Halted: a next state (log 1). -/
def raise (r : FaultRecord) (s : State) : Result := .next (takeFault r (s.setPc s.fetchAddr))

/-- A meaning that accesses base..base+n-1: the fault of R52, or else the state `after`. -/
def withRange (base n : Nat) (s after : State) : Result :=
  match rangeFault s.fetchAddr base n with
  | some r => raise r s
  | none => .next after

/-! ## Fetch and the pc (30_encoding.md R82, 40_flow.md R108) -/

/-- The fetch at pc: the range check, then two bytes, big-endian (R53, R82). -/
def State.fetch (s : State) : Except FaultRecord Word :=
  match rangeFault s.pc s.pc.toNat 2 with
  | some r => .error r
  | none => .ok (joinBytes (s.mem.read s.pc.toNat) (s.mem.read (s.pc.toNat + 1)))

/-- The generic advance: `pc <- (pc + 2) mod 0x10000` (R82). -/
def State.advance (s : State) : State := s.setPc (s.pc + 2)

/-- A skip when c holds: 2 more on top of the generic advance (R108). -/
def State.skipIf (s : State) (c : Bool) : State := if c then s.setPc (s.pc + 2) else s

/-- Where the next Step fetches, if it can fetch there; else the entry point (log 6). -/
def fetchSlot (s : State) : Word := if s.pc.toNat + 2 ≤ Config.memSize then s.pc else BitVec.ofNat 16 Config.programBase

/-- s with the word w placed where the next Step fetches, and nothing else changed that the fetch does not need: a core
that waits or has halted, or whose pc lies outside memory, fetches nothing, so run and pc are set too (log 6). -/
def placeFetchWord (w : Word) (s : State) : State :=
  { s with
    pc := fetchSlot s
    run := .running
    mem := s.mem.writeBytes (fetchSlot s).toNat [hiByte w, loByte w] }

end Sys2Proof.Machine
end

