-- ==== Sys2Proof/Machine/Operands.lean ====
section
/-! DEFINITION. The operand forms (30_encoding.md R73): registers, immediates, the 12-bit address, I-relative memory
(20_memory.md R56), register blocks, and the key operand. Every form reads the state before the first write (R84). -/

namespace Sys2Proof.Machine

/-- `zext_16(nnn)` (R73). -/
def addrOperand (nnn : BitVec 12) : Word := nnn.zeroExtend 16

/-- The base address of every data access: I, as an exact number (R50, R56). -/
def State.base (s : State) : Nat := s.I.toNat

/-- How many registers V0..Vx are (R154, R155). -/
def blockLength (x : Reg) : Nat := x.val + 1

/-- V0..Vx, in order: what Fx55 stores (R154). -/
def State.regBlock (s : State) (x : Reg) : List Byte := s.V.toList.take (blockLength x)

/-- `for k in 0..: V[k] <- bs[k]`, from register j on: what Fx65 does with the bytes it read (R155). -/
def State.setRegBlock : State → Nat → List Byte → State
  | s, _, [] => s
  | s, j, b :: bs => State.setRegBlock (if h : j < 16 then s.setReg ⟨j, h⟩ b else s) (j + 1) bs

/-- The sprite rows of Dxyn: n bytes at I (R169). -/
def State.spriteRows (s : State) (n : Fin 16) : List Byte := s.mem.readBytes s.base n.val

/-- The key operand Vx (R180, R181): a key number 0..15, or none when Vx > 15. -/
def State.keyOperand (s : State) (x : Reg) : Option Key :=
  if h : (s.reg x).toNat < 16 then some ⟨(s.reg x).toNat, h⟩ else none

/-- The three decimal digits of a byte, hundreds first (R153). Division truncates (R10). -/
def bcdDigits (a : Byte) : List Byte :=
  [BitVec.ofNat 8 (a.toNat / 100), BitVec.ofNat 8 (a.toNat / 10 % 10), BitVec.ofNat 8 (a.toNat % 10)]

end Sys2Proof.Machine
end

