-- ==== Sys2Proof/Machine/Flags.lean ====
section
/-! DEFINITION. The flag computations (10_state.md R35, 41_alu.md R132), all into VF, and the order in which a flag and
a result are written (30_encoding.md R84). -/

namespace Sys2Proof.Machine

/-- A condition as a flag value: 1 or 0. -/
def flagOf (c : Bool) : Byte := if c then 1 else 0

/-- 8xy4: 1 exactly when the exact sum exceeds 255. -/
def carryFlag (a b : Byte) : Byte := flagOf (255 < a.toNat + b.toNat)

/-- 8xy5 and 8xy7: NOT borrow, with the STRICT comparison: equal operands give 0. -/
def notBorrowFlag (minuend subtrahend : Byte) : Byte := flagOf (subtrahend.toNat < minuend.toNat)

/-- 8xy6: the bit shifted out to the right, `a & 1`. -/
def shiftedOutLow (a : Byte) : Byte := a &&& 1

/-- 8xyE: the bit shifted out to the left, `(a >> 7) & 1`. -/
def shiftedOutHigh (a : Byte) : Byte := (a >>> 7) &&& 1

/-- `(a + b) mod 256` (R132). -/
def addMod (a b : Byte) : Byte := BitVec.ofNat 8 ((a.toNat + b.toNat) % 256)

/-- `(a - b) mod 256` (R132): the exact difference of two integers, then the non-negative remainder (R10). -/
def subMod (a b : Byte) : Byte := BitVec.ofInt 8 (((a.toNat : Int) - (b.toNat : Int)) % 256)

/-- The flag first, the result second: when x is VF the result stands (R84, R133, D11). -/
def State.setFlagThenReg (s : State) (flag : Byte) (x : Reg) (result : Byte) : State :=
  (s.setReg VF flag).setReg x result

end Sys2Proof.Machine
end

