-- ==== Sys2Proof/Machine/Alu.lean ====
section
/-! DEFINITION. Register loads and the ALU (41_alu.md). None accesses memory and none raises an exception. -/

namespace Sys2Proof.Machine

/-- 6xkk LD Vx, kk (R120). -/
def execLdImm (x : Reg) (kk : Byte) (s : State) : Result := .next (s.setReg x kk)

/-- 7xkk ADD Vx, kk (R121): no flag. -/
def execAddImm (x : Reg) (kk : Byte) (s : State) : Result := .next (s.setReg x (addMod (s.reg x) kk))

/-- 8xy0 LD Vx, Vy (R122). -/
def execLdReg (x y : Reg) (s : State) : Result := .next (s.setReg x (s.reg y))

/-- 8xy1 OR Vx, Vy (R123): VF is not reset. -/
def execOrReg (x y : Reg) (s : State) : Result := .next (s.setReg x (s.reg x ||| s.reg y))

/-- 8xy2 AND Vx, Vy (R124): VF is not reset. -/
def execAndReg (x y : Reg) (s : State) : Result := .next (s.setReg x (s.reg x &&& s.reg y))

/-- 8xy3 XOR Vx, Vy (R125): VF is not reset. -/
def execXorReg (x y : Reg) (s : State) : Result := .next (s.setReg x (s.reg x ^^^ s.reg y))

/-- 8xy4 ADD Vx, Vy (R126). -/
def execAddReg (x y : Reg) (s : State) : Result :=
  .next (s.setFlagThenReg (carryFlag (s.reg x) (s.reg y)) x (addMod (s.reg x) (s.reg y)))

/-- 8xy5 SUB Vx, Vy (R127): Vx − Vy. -/
def execSubReg (x y : Reg) (s : State) : Result :=
  .next (s.setFlagThenReg (notBorrowFlag (s.reg x) (s.reg y)) x (subMod (s.reg x) (s.reg y)))

/-- 8xy6 SHR Vx (R128): Vy is neither read nor written. -/
def execShr (x _y : Reg) (s : State) : Result :=
  .next (s.setFlagThenReg (shiftedOutLow (s.reg x)) x (s.reg x >>> 1))

/-- 8xy7 SUBN Vx, Vy (R129): Vy − Vx. -/
def execSubnReg (x y : Reg) (s : State) : Result :=
  .next (s.setFlagThenReg (notBorrowFlag (s.reg y) (s.reg x)) x (subMod (s.reg y) (s.reg x)))

/-- 8xyE SHL Vx (R130): Vy is neither read nor written; the shift drops bit 7, `(a << 1) mod 256`. -/
def execShl (x _y : Reg) (s : State) : Result :=
  .next (s.setFlagThenReg (shiftedOutHigh (s.reg x)) x (s.reg x <<< 1))

/-- Cxkk RND Vx, kk (R131): a fresh free byte, masked. -/
def execRnd (x : Reg) (kk : Byte) (s : State) : Result := .next ((s.setReg x (s.randByte &&& kk)).countDraw)

end Sys2Proof.Machine
end

