-- ==== Sys2Proof/Machine/Control.lean ====
section
/-! DEFINITION. Control transfer (40_flow.md): return, jumps, call and skips. On entry pc is A + 2. -/

namespace Sys2Proof.Machine

/-- 00EE RET (R100): StackUnderflow at SP = 0; else pc <- stack[SP], SP <- SP - 1. The entry is not cleared. A state
whose SP is above 15 is none of the spec's (R25, log 2). -/
def execRet (s : State) : Result :=
  if s.SP = 0 then raise (.stackUnderflow s.fetchAddr s.SP) s
  else if h : s.SP.toNat < 16 then .next ((s.setPc s.stack[s.SP.toNat]).setSP (s.SP - 1))
  else .fault (.illegalStackPointer s.SP)

/-- 1nnn JP nnn (R101). -/
def execJp (nnn : BitVec 12) (s : State) : Result := .next (s.setPc (addrOperand nnn))

/-- 2nnn CALL nnn (R102): StackOverflow at SP = 15; else SP <- SP + 1, stack[SP] <- A + 2, pc <- nnn. A state whose SP is
above 15 is none of the spec's (R25, log 2). -/
def execCall (nnn : BitVec 12) (s : State) : Result :=
  if s.SP.toNat = Config.maxSP then raise (.stackOverflow s.fetchAddr s.SP) s
  else if h : s.SP.toNat + 1 < 16 then
    .next (((s.setSP (s.SP + 1)).setStack ⟨s.SP.toNat + 1, h⟩ s.pc).setPc (addrOperand nnn))
  else .fault (.illegalStackPointer s.SP)

/-- Bnnn JP V0, nnn (R103): the sum is not reduced to 12 bits, and 16 bits hold it. -/
def execJpV0 (nnn : BitVec 12) (s : State) : Result :=
  .next (s.setPc (addrOperand nnn + (s.reg 0).zeroExtend 16))

/-- 3xkk SE Vx, kk (R104). -/
def execSeImm (x : Reg) (kk : Byte) (s : State) : Result := .next (s.skipIf (s.reg x == kk))

/-- 4xkk SNE Vx, kk (R105). -/
def execSneImm (x : Reg) (kk : Byte) (s : State) : Result := .next (s.skipIf (s.reg x != kk))

/-- 5xy0 SE Vx, Vy (R106). -/
def execSeReg (x y : Reg) (s : State) : Result := .next (s.skipIf (s.reg x == s.reg y))

/-- 9xy0 SNE Vx, Vy (R107). -/
def execSneReg (x y : Reg) (s : State) : Result := .next (s.skipIf (s.reg x != s.reg y))

end Sys2Proof.Machine
end

