-- ==== Sys2Proof/Machine/Compositor.lean ====
section
/-! DEFINITION. The framebuffer sprite compositor (43_display.md R165 to R167). -/

namespace Sys2Proof.Machine

/-- `Pix(x, y)` (R165). -/
def Framebuffer.pix (fb : Framebuffer) (x : Fin 64) (y : Fin 32) : Bool := fb[y][x]

/-- `Pix(x, y) <- b` (R165). -/
def Framebuffer.setPix (fb : Framebuffer) (x : Fin 64) (y : Fin 32) (b : Bool) : Framebuffer :=
  fb.set y (fb[y].set x b)

/-- `clear()` (R167). -/
def Framebuffer.clear : Framebuffer := Vector.replicate 32 (Vector.replicate 64 false)

/-- `v mod 64`, a column. -/
def column (v : Nat) : Fin 64 := ⟨v % 64, Nat.mod_lt _ (by decide)⟩

/-- `v mod 32`, a row. -/
def rowOf (v : Nat) : Fin 32 := ⟨v % 32, Nat.mod_lt _ (by decide)⟩

/-- `(row >> (7 - b)) & 1`: bit b of a sprite row, the most significant first (R166). -/
def spriteBit (row : Byte) (b : Nat) : Bool := row.getLsbD (7 - b)

/-- One bit of the blit (R166): the collision so far and the framebuffer so far, after bit b of the row drawn at
framebuffer row py. -/
def blitBit (x : Nat) (py : Fin 32) (row : Byte) (acc : Bool × Framebuffer) (b : Nat) : Bool × Framebuffer :=
  let px := column (x + b)
  let bit := spriteBit row b
  let old := acc.2.pix px py
  (acc.1 || (old && bit), acc.2.setPix px py (old ^^ bit))

/-- The rows of the blit from row index r on (R166). -/
def blitRows (x y : Nat) : Nat → List Byte → Bool × Framebuffer → Bool × Framebuffer
  | _, [], acc => acc
  | r, row :: rows, acc => blitRows x y (r + 1) rows ((List.range 8).foldl (blitBit x (rowOf (y + r)) row) acc)

/-- `draw_sprite(x, y, rows) -> collision` (R166): the collision, and the framebuffer after. Where the last clause of R170
says otherwise of a second equal draw, R166 is followed (log 10, DEDUCED). -/
def drawSprite (x y : Nat) (rows : List Byte) (fb : Framebuffer) : Bool × Framebuffer := blitRows x y 0 rows (false, fb)

end Sys2Proof.Machine
end

