-- ==== Sys2Proof/Machine/Display.lean ====
section
/-! DEFINITION. The display instructions (43_display.md): 00E0 and Dxyn. -/

namespace Sys2Proof.Machine

/-- 00E0 CLS (R168): `clear()`; VF is unchanged. -/
def execCls (s : State) : Result := .next (s.setFb Framebuffer.clear)

/-- Dxyn DRW Vx, Vy, n (R169): n rows from memory at I, drawn at (Vx, Vy) as they were before the instruction (R84);
VF is the collision, written last, so it stands when x or y is F. n = 0 reads nothing and cannot fault (R52). -/
def execDrw (x y : Reg) (n : Fin 16) (s : State) : Result :=
  let drawn := drawSprite (s.reg x).toNat (s.reg y).toNat (s.spriteRows n) s.fb
  withRange s.base n.val s ((s.setFb drawn.2).setReg VF (flagOf drawn.1))

end Sys2Proof.Machine
end

