-- ==== Sys2Proof/Machine/IndexMemory.lean ====
section
/-! DEFINITION. The index register and the memory transfers (42_index_memory.md). I is changed by no access (R56). -/

namespace Sys2Proof.Machine

/-- Annn LD I, nnn (R150). -/
def execLdI (nnn : BitVec 12) (s : State) : Result := .next (s.setI (addrOperand nnn))

/-- Fx1E ADD I, Vx (R151): mod 0x10000, no flag. -/
def execAddI (x : Reg) (s : State) : Result := .next (s.setI (s.I + (s.reg x).zeroExtend 16))

/-- Fx29 LD F, Vx (R152): I <- Vx * 5, unmasked. -/
def execLdF (x : Reg) (s : State) : Result := .next (s.setI (BitVec.ofNat 16 ((s.reg x).toNat * 5)))

/-- Fx33 LD B, Vx (R153): three decimal digits at I, I + 1, I + 2; the whole range is checked first (R52). -/
def execLdB (x : Reg) (s : State) : Result :=
  withRange s.base 3 s (s.setMem (s.mem.writeBytes s.base (bcdDigits (s.reg x))))

/-- Fx55 LD [I], Vx (R154): V0..Vx to I..I+x; the whole range is checked first (R52). -/
def execStoreRegs (x : Reg) (s : State) : Result :=
  withRange s.base (blockLength x) s (s.setMem (s.mem.writeBytes s.base (s.regBlock x)))

/-- Fx65 LD Vx, [I] (R155): I..I+x to V0..Vx; the whole range is checked first (R52). -/
def execLoadRegs (x : Reg) (s : State) : Result :=
  withRange s.base (blockLength x) s (s.setRegBlock 0 (s.mem.readBytes s.base (blockLength x)))

end Sys2Proof.Machine
end

