-- ==== Sys2Proof/Machine/KeysTimers.lean ====
section
/-! DEFINITION. Key input and timer instructions (44_timers_input.md). -/

namespace Sys2Proof.Machine

/-- Ex9E SKP Vx (R180): OutOfRangeKey when Vx > 15. -/
def execSkp (x : Reg) (s : State) : Result :=
  match s.keyOperand x with
  | none => raise (.outOfRangeKey s.fetchAddr (s.reg x)) s
  | some k => .next (s.skipIf (s.keyIsDown k))

/-- ExA1 SKNP Vx (R181): OutOfRangeKey when Vx > 15. -/
def execSknp (x : Reg) (s : State) : Result :=
  match s.keyOperand x with
  | none => raise (.outOfRangeKey s.fetchAddr (s.reg x)) s
  | some k => .next (s.skipIf (!s.keyIsDown k))

/-- Fx07 LD Vx, DT (R182). -/
def execLdVxDT (x : Reg) (s : State) : Result := .next (s.setReg x s.DT)

/-- Fx0A LD Vx, K (R183): enter WaitKey(x); pc stays at A + 2. KeyDown completes it (60_exceptions.md R209). -/
def execLdVxK (x : Reg) (s : State) : Result := .next (s.setRun (.waitKey x))

/-- Fx15 LD DT, Vx (R184). -/
def execLdDTVx (x : Reg) (s : State) : Result := .next (s.setDT (s.reg x))

/-- Fx18 LD ST, Vx (R185). -/
def execLdSTVx (x : Reg) (s : State) : Result := .next (s.setST (s.reg x))

end Sys2Proof.Machine
end

