-- ==== Sys2Proof/Machine/Cycle.lean ====
section
/-! DEFINITION. The fetch-decode-execute cycle (30_encoding.md R82 to R87), which Step.lean calls. -/

namespace Sys2Proof.Machine

/-- An UNKNOWN word (R87, R201): the report (A, w), and nothing else; the generic advance has been made. -/
def execUnknown (w : Word) (s : State) : Result := .next (s.emit s.fetchAddr w)

/-- Execute a fetched word; pc is already A + 2 (R82, R83). -/
def execWord (w : Word) (s : State) : Result :=
  match decodeWord w with
  | .known i => exec i s
  | .unknown u => execUnknown u s

/-- One cycle of a running core: fetch, advance, execute. A fetch that faults executes nothing (R82, R204), and its
fault is taken with pc as it was. -/
def cycle (s : State) : Result :=
  match s.fetch with
  | .error r => .next (takeFault r s)
  | .ok w => execWord w s.advance

/-- The Step action (R82): nothing in WaitKey and nothing in Halted (R86). -/
def stepAction (s : State) : Result :=
  match s.run with
  | .halted _ => .next s
  | .waitKey _ => .next s
  | .running => cycle s

end Sys2Proof.Machine
end

