-- ==== Sys2Proof/Machine/Step.lean ====
section
/-! DEFINITION. One step of the machine, and the placing of a word where it fetches. -/

namespace Sys2Proof.Machine

/-- The Step action (30_encoding.md R82). -/
def step (s : State) : Host.Outcome State Fault Refusal := stepAction s

/-- s with an opcode-table row's word (nbits bits of w, the bits above them 0) where step fetches its next instruction
(log 6). -/
def State.withFetchWord (s : State) (nbits w : Nat) : State := placeFetchWord (BitVec.ofNat 16 (w % 2 ^ nbits)) s

end Sys2Proof.Machine
end

