-- ==== Sys2Proof/Machine/HostActions.lean ====
section
/-! DEFINITION. The host's actions on the core other than Step (60_exceptions.md R207 to R210) and the two load entry
points (20_memory.md R61, R62). In Halted none of the first three has an effect (R202). Which action comes next is the
host's choice (log 7). -/

namespace Sys2Proof.Machine

/-- A host action that a halted core ignores (R202). -/
def State.unlessHalted (s : State) (after : State) : State :=
  match s.run with
  | .halted _ => s
  | .running => after
  | .waitKey _ => after

/-- A timer's countdown by one, stopping at 0 (R208, R211). -/
def countDown (t : Byte) : Byte := if 0 < t.toNat then t - 1 else t

/-- Tick (R208). -/
def tick (s : State) : State := s.unlessHalted ((s.setDT (countDown s.DT)).setST (countDown s.ST))

/-- KeyDown(k) (R209): the level, and the press event that ends a wait: V[x] <- k, run <- Running. -/
def keyDown (k : Key) (s : State) : State :=
  match s.run with
  | .halted _ => s
  | .running => s.setKey k true
  | .waitKey x => ((s.setKey k true).setReg x (BitVec.ofNat 8 k.val)).setRun .running

/-- KeyUp(k) (R210): the level only. -/
def keyUp (k : Key) (s : State) : State := s.unlessHalted (s.setKey k false)

/-- A load's result (R62, R6). -/
inductive LoadResult where
  | ok
  | romTooLarge (len : Nat)
  deriving DecidableEq, Repr

/-- LoadFont(f), f of 80 bytes (R61). -/
def loadFont (f : List Byte) (s : State) : State := s.setMem (s.mem.writeBytes Config.fontBase f)

/-- LoadProgram(b, len) (R62): a program over 3584 bytes changes nothing at all. -/
def loadProgram (b : List Byte) (s : State) : LoadResult × State :=
  if Config.maxProgramLength < b.length then (.romTooLarge b.length, s)
  else (.ok, s.setMem (s.mem.writeBytes Config.programBase b))

/-- The numeric codes of the error kinds (R200, D23). -/
def ErrorKind.code : ErrorKind → Nat
  | .unknownOpcode => 1
  | .stackOverflow => 2
  | .stackUnderflow => 3
  | .outOfRangeMemory => 4
  | .outOfRangeKey => 5
  | .romTooLarge => 6

/-- The kind of a fatal fault's record (R37, R200). -/
def FaultRecord.kind : FaultRecord → ErrorKind
  | .stackOverflow _ _ => .stackOverflow
  | .stackUnderflow _ _ => .stackUnderflow
  | .outOfRangeMemory _ _ => .outOfRangeMemory
  | .outOfRangeKey _ _ => .outOfRangeKey

/-- A fatal fault's recorded fetch address A (R37). -/
def FaultRecord.fetchAddr : FaultRecord → Word
  | .stackOverflow A _ => A
  | .stackUnderflow A _ => A
  | .outOfRangeMemory A _ => A
  | .outOfRangeKey A _ => A

end Sys2Proof.Machine
end

