-- ==== Sys2Proof/Machine/System.lean ====
section
/-! DEFINITION. The core under its host (70_reset_and_hazards.md R231, 60_exceptions.md R207): the state with the
bookkeeping of its launch, one transition per action, and the runs of actions. -/

namespace Sys2Proof.Machine

/-- How far the launch has come. The model's own bookkeeping, so that the loads R231 puts outside the spec can be
refused (log 8), and the load_result output of 00_scope.md R6. -/
structure Launch where
  /-- a Step or a Tick has been done -/
  started : Bool
  /-- LoadFont has been done -/
  fontLoaded : Bool
  /-- what LoadProgram answered, if it has been done -/
  loadResult : Option LoadResult
  deriving DecidableEq, Repr

/-- The core and its launch. -/
structure System where
  core : State
  launch : Launch
  deriving DecidableEq, Repr

/-- Right after reset, before any load (R230, R231). -/
def System.reset : System where
  core := State.reset
  launch := { started := false, fontLoaded := false, loadResult := none }

/-- How an action ends. -/
abbrev SystemResult := Host.Outcome System Fault Refusal

/-- A launch whose LoadProgram answered RomTooLarge does not run (R63, R231; log 9). -/
def Launch.failed (l : Launch) : Bool :=
  match l.loadResult with
  | some (.romTooLarge _) => true
  | some .ok => false
  | none => false

/-- Step, Tick: the launch has started (R231). -/
def System.started (y : System) (core : State) : System := { core, launch := { y.launch with started := true } }

/-- Step over the system. -/
def System.stepAct (y : System) : SystemResult :=
  match step y.core with
  | .next s => .next (y.started s)
  | .fault r => .fault r
  | .refused r => .refused r

/-- LoadFont over the system: at launch only, once, 80 bytes (R61, R231, D21). -/
def System.loadFontAct (y : System) (f : List Byte) : SystemResult :=
  if y.launch.started then .refused .loadAfterStart
  else if y.launch.fontLoaded then .refused .fontLoadedTwice
  else if f.length ≠ Config.fontLength then .refused .fontNotEightyBytes
  else .next { core := loadFont f y.core, launch := { y.launch with fontLoaded := true } }

/-- LoadProgram over the system: at launch only, once (R62, R231, D21). -/
def System.loadProgramAct (y : System) (b : List Byte) : SystemResult :=
  if y.launch.started then .refused .loadAfterStart
  else if y.launch.loadResult.isSome then .refused .programLoadedTwice
  else .next { core := (loadProgram b y.core).2, launch := { y.launch with loadResult := some (loadProgram b y.core).1 } }

/-- One host action (R207). -/
def System.act (a : Action) (y : System) : SystemResult :=
  if y.launch.failed then .refused .launchFailed
  else
    match a with
    | .step => y.stepAct
    | .tick => .next (y.started (tick y.core))
    | .keyDown k => .next { y with core := keyDown k y.core }
    | .keyUp k => .next { y with core := keyUp k y.core }
    | .loadFont f => y.loadFontAct f
    | .loadProgram b => y.loadProgramAct b

/-- A sequence of host actions, stopping at the first fault or refusal (R207: any sequence is a legal run). -/
def System.acts : List Action → System → SystemResult
  | [], y => .next y
  | a :: as, y =>
    match y.act a with
    | .next y' => System.acts as y'
    | .fault r => .fault r
    | .refused r => .refused r

/-- A launch (R231): reset, LoadFont(f), LoadProgram(rom). -/
def System.launchWith (f rom : List Byte) : SystemResult := System.acts [.loadFont f, .loadProgram rom] System.reset

end Sys2Proof.Machine
end

