-- ==== Sys2Proof/Safety.lean ====
section
/-! DEFINITION. What the statements speak of: the spec's opcode table and encodings as it writes them, the parts of the
state and what an instruction leaves alone, the invariant of every run, and a good end of a run. Nothing here is used by
the machine: these are transcriptions of the spec's tables, to hold the machine against. -/

namespace Sys2Proof
open Machine

/-! ## The encodings as the rules write them (30_encoding.md R71 to R74) -/

/-- `match | nnn` -/
def wordA (base : Word) (nnn : BitVec 12) : Word := base ||| nnn.zeroExtend 16

/-- `match | x<<8 | kk` -/
def wordXK (base : Word) (x : Reg) (kk : Byte) : Word := base ||| (BitVec.ofNat 16 x.val <<< 8) ||| kk.zeroExtend 16

/-- `match | x<<8 | y<<4 | n`; with n = 0, the XY format's `match | x<<8 | y<<4` -/
def wordXYN (base : Word) (x y : Reg) (n : Fin 16) : Word :=
  base ||| (BitVec.ofNat 16 x.val <<< 8) ||| (BitVec.ofNat 16 y.val <<< 4) ||| BitVec.ofNat 16 n.val

/-- `match | x<<8 | y<<4` -/
def wordXY (base : Word) (x y : Reg) : Word := wordXYN base x y 0

/-- `match | x<<8` -/
def wordX (base : Word) (x : Reg) : Word := base ||| (BitVec.ofNat 16 x.val <<< 8)

/-- A row of R74: a word spells the row's instruction when `(w & mask) = match`. -/
structure OpcodeRow where
  val : Word
  mask : Word
  deriving DecidableEq, Repr

/-- The row of an instruction (R74, the columns match and mask). -/
def Instr.row : Instr → OpcodeRow
  | .cls => ⟨0x00E0, 0xFFFF⟩
  | .ret => ⟨0x00EE, 0xFFFF⟩
  | .jp _ => ⟨0x1000, 0xF000⟩
  | .call _ => ⟨0x2000, 0xF000⟩
  | .seImm _ _ => ⟨0x3000, 0xF000⟩
  | .sneImm _ _ => ⟨0x4000, 0xF000⟩
  | .seReg _ _ => ⟨0x5000, 0xF00F⟩
  | .sneReg _ _ => ⟨0x9000, 0xF00F⟩
  | .ldImm _ _ => ⟨0x6000, 0xF000⟩
  | .addImm _ _ => ⟨0x7000, 0xF000⟩
  | .ldReg _ _ => ⟨0x8000, 0xF00F⟩
  | .orReg _ _ => ⟨0x8001, 0xF00F⟩
  | .andReg _ _ => ⟨0x8002, 0xF00F⟩
  | .xorReg _ _ => ⟨0x8003, 0xF00F⟩
  | .addReg _ _ => ⟨0x8004, 0xF00F⟩
  | .subReg _ _ => ⟨0x8005, 0xF00F⟩
  | .shr _ _ => ⟨0x8006, 0xF00F⟩
  | .subnReg _ _ => ⟨0x8007, 0xF00F⟩
  | .shl _ _ => ⟨0x800E, 0xF00F⟩
  | .ldI _ => ⟨0xA000, 0xF000⟩
  | .jpV0 _ => ⟨0xB000, 0xF000⟩
  | .rnd _ _ => ⟨0xC000, 0xF000⟩
  | .drw _ _ _ => ⟨0xD000, 0xF000⟩
  | .skp _ => ⟨0xE09E, 0xF0FF⟩
  | .sknp _ => ⟨0xE0A1, 0xF0FF⟩
  | .ldVxDT _ => ⟨0xF007, 0xF0FF⟩
  | .ldVxK _ => ⟨0xF00A, 0xF0FF⟩
  | .ldDTVx _ => ⟨0xF015, 0xF0FF⟩
  | .ldSTVx _ => ⟨0xF018, 0xF0FF⟩
  | .addI _ => ⟨0xF01E, 0xF0FF⟩
  | .ldF _ => ⟨0xF029, 0xF0FF⟩
  | .ldB _ => ⟨0xF033, 0xF0FF⟩
  | .storeRegs _ => ⟨0xF055, 0xF0FF⟩
  | .loadRegs _ => ⟨0xF065, 0xF0FF⟩

/-- The 34 rows of R74, in its order. -/
def opcodeRows : List OpcodeRow :=
  [⟨0x00E0, 0xFFFF⟩, ⟨0x00EE, 0xFFFF⟩, ⟨0x1000, 0xF000⟩, ⟨0x2000, 0xF000⟩, ⟨0x3000, 0xF000⟩, ⟨0x4000, 0xF000⟩,
   ⟨0x5000, 0xF00F⟩, ⟨0x9000, 0xF00F⟩, ⟨0x6000, 0xF000⟩, ⟨0x7000, 0xF000⟩, ⟨0x8000, 0xF00F⟩, ⟨0x8001, 0xF00F⟩] ++
  [⟨0x8002, 0xF00F⟩, ⟨0x8003, 0xF00F⟩, ⟨0x8004, 0xF00F⟩, ⟨0x8005, 0xF00F⟩, ⟨0x8006, 0xF00F⟩, ⟨0x8007, 0xF00F⟩,
   ⟨0x800E, 0xF00F⟩, ⟨0xA000, 0xF000⟩, ⟨0xB000, 0xF000⟩, ⟨0xC000, 0xF000⟩, ⟨0xD000, 0xF000⟩] ++
  [⟨0xE09E, 0xF0FF⟩, ⟨0xE0A1, 0xF0FF⟩, ⟨0xF007, 0xF0FF⟩, ⟨0xF00A, 0xF0FF⟩, ⟨0xF015, 0xF0FF⟩, ⟨0xF018, 0xF0FF⟩,
   ⟨0xF01E, 0xF0FF⟩, ⟨0xF029, 0xF0FF⟩, ⟨0xF033, 0xF0FF⟩, ⟨0xF055, 0xF0FF⟩, ⟨0xF065, 0xF0FF⟩]

/-! ## Parts of the state, and what is left alone (10_state.md R20, 30_encoding.md R85) -/

/-- The elements of the state: R20's, and the model's own draw counter. -/
inductive Part where
  | mem | V | I | pc | SP | stack | DT | ST | fb | run | keys | diag | draws
  deriving DecidableEq, Repr

/-- Part p of t is what it was in s: every byte, every register, every stack entry, every pixel, every key, the whole
log. -/
def Part.same (p : Part) (s t : State) : Prop :=
  match p with
  | .mem => ∀ a, t.mem.read a = s.mem.read a
  | .V => ∀ r, t.reg r = s.reg r
  | .I => t.I = s.I
  | .pc => t.pc = s.pc
  | .SP => t.SP = s.SP
  | .stack => ∀ j : Fin 16, t.stack[j] = s.stack[j]
  | .DT => t.DT = s.DT
  | .ST => t.ST = s.ST
  | .fb => ∀ x y, t.fb.pix x y = s.fb.pix x y
  | .run => t.run = s.run
  | .keys => ∀ k, t.keyIsDown k = s.keyIsDown k
  | .diag => t.diag = s.diag
  | .draws => t.randDraws = s.randDraws

/-- Every part but those named is unchanged. -/
def OnlyChanges (ps : List Part) (s t : State) : Prop := ∀ p, p ∉ ps → p.same s t

/-- Every general register but those named is unchanged. -/
def OnlyRegs (rs : List Reg) (s t : State) : Prop := ∀ r, r ∉ rs → t.reg r = s.reg r

/-- Every byte of memory outside base..base+n-1 is unchanged. -/
def OnlyBytes (base n : Nat) (s t : State) : Prop :=
  ∀ a, (a < base ∨ base + n ≤ a) → t.mem.read a = s.mem.read a

/-- The parts an instruction's own rule names as written (R85; each rule's pseudocode). -/
def Instr.writes : Instr → List Part
  | .cls => [.fb]
  | .ret => [.pc, .SP]
  | .jp _ => [.pc]
  | .call _ => [.SP, .stack, .pc]
  | .seImm _ _ => [.pc] | .sneImm _ _ => [.pc] | .seReg _ _ => [.pc] | .sneReg _ _ => [.pc]
  | .ldImm _ _ => [.V] | .addImm _ _ => [.V]
  | .ldReg _ _ => [.V] | .orReg _ _ => [.V] | .andReg _ _ => [.V] | .xorReg _ _ => [.V]
  | .addReg _ _ => [.V] | .subReg _ _ => [.V] | .shr _ _ => [.V] | .subnReg _ _ => [.V] | .shl _ _ => [.V]
  | .ldI _ => [.I]
  | .jpV0 _ => [.pc]
  | .rnd _ _ => [.V, .draws]
  | .drw _ _ _ => [.fb, .V]
  | .skp _ => [.pc] | .sknp _ => [.pc]
  | .ldVxDT _ => [.V]
  | .ldVxK _ => [.run]
  | .ldDTVx _ => [.DT]
  | .ldSTVx _ => [.ST]
  | .addI _ => [.I] | .ldF _ => [.I]
  | .ldB _ => [.mem] | .storeRegs _ => [.mem]
  | .loadRegs _ => [.V]

/-- The general registers an instruction's rule names as written, VF as a flag among them (R35, R85). -/
def Instr.destRegs : Instr → List Reg
  | .cls => [] | .ret => [] | .jp _ => [] | .call _ => []
  | .seImm _ _ => [] | .sneImm _ _ => [] | .seReg _ _ => [] | .sneReg _ _ => []
  | .ldImm x _ => [x] | .addImm x _ => [x]
  | .ldReg x _ => [x] | .orReg x _ => [x] | .andReg x _ => [x] | .xorReg x _ => [x]
  | .addReg x _ => [VF, x] | .subReg x _ => [VF, x] | .shr x _ => [VF, x] | .subnReg x _ => [VF, x] | .shl x _ => [VF, x]
  | .ldI _ => [] | .jpV0 _ => []
  | .rnd x _ => [x]
  | .drw _ _ _ => [VF]
  | .skp _ => [] | .sknp _ => []
  | .ldVxDT x => [x]
  | .ldVxK _ => [] | .ldDTVx _ => [] | .ldSTVx _ => [] | .addI _ => [] | .ldF _ => [] | .ldB _ => [] | .storeRegs _ => []
  | .loadRegs x => (List.finRange 16).filter (· ≤ x)

/-- How many bytes an instruction accesses at I (20_memory.md R47, R52). -/
def Instr.accessLength : Instr → Nat
  | .drw _ _ n => n.val
  | .ldB _ => 3
  | .storeRegs x => x.val + 1
  | .loadRegs x => x.val + 1
  | .cls => 0 | .ret => 0 | .jp _ => 0 | .call _ => 0
  | .seImm _ _ => 0 | .sneImm _ _ => 0 | .seReg _ _ => 0 | .sneReg _ _ => 0 | .ldImm _ _ => 0 | .addImm _ _ => 0
  | .ldReg _ _ => 0 | .orReg _ _ => 0 | .andReg _ _ => 0 | .xorReg _ _ => 0 | .addReg _ _ => 0 | .subReg _ _ => 0
  | .shr _ _ => 0 | .subnReg _ _ => 0 | .shl _ _ => 0 | .ldI _ => 0 | .jpV0 _ => 0 | .rnd _ _ => 0
  | .skp _ => 0 | .sknp _ => 0 | .ldVxDT _ => 0 | .ldVxK _ => 0 | .ldDTVx _ => 0 | .ldSTVx _ => 0
  | .addI _ => 0 | .ldF _ => 0

/-- The bytes an instruction stores: how many, at I (R47); 0 for one that stores nothing. -/
def Instr.storeLength : Instr → Nat
  | .ldB _ => 3
  | .storeRegs x => x.val + 1
  | .cls => 0 | .ret => 0 | .jp _ => 0 | .call _ => 0
  | .seImm _ _ => 0 | .sneImm _ _ => 0 | .seReg _ _ => 0 | .sneReg _ _ => 0 | .ldImm _ _ => 0 | .addImm _ _ => 0
  | .ldReg _ _ => 0 | .orReg _ _ => 0 | .andReg _ _ => 0 | .xorReg _ _ => 0 | .addReg _ _ => 0 | .subReg _ _ => 0
  | .shr _ _ => 0 | .subnReg _ _ => 0 | .shl _ _ => 0 | .ldI _ => 0 | .jpV0 _ => 0 | .rnd _ _ => 0 | .drw _ _ _ => 0
  | .skp _ => 0 | .sknp _ => 0 | .ldVxDT _ => 0 | .ldVxK _ => 0 | .ldDTVx _ => 0 | .ldSTVx _ => 0
  | .addI _ => 0 | .ldF _ => 0 | .loadRegs _ => 0

/-- The one kind of fatal fault an instruction can raise, if any (60_exceptions.md R200, R204). -/
def Instr.faultKind : Instr → Option ErrorKind
  | .call _ => some .stackOverflow
  | .ret => some .stackUnderflow
  | .drw _ _ _ => some .outOfRangeMemory | .ldB _ => some .outOfRangeMemory
  | .storeRegs _ => some .outOfRangeMemory | .loadRegs _ => some .outOfRangeMemory
  | .skp _ => some .outOfRangeKey | .sknp _ => some .outOfRangeKey
  | .cls => none | .jp _ => none
  | .seImm _ _ => none | .sneImm _ _ => none | .seReg _ _ => none | .sneReg _ _ => none | .ldImm _ _ => none
  | .addImm _ _ => none | .ldReg _ _ => none | .orReg _ _ => none | .andReg _ _ => none | .xorReg _ _ => none
  | .addReg _ _ => none | .subReg _ _ => none | .shr _ _ => none | .subnReg _ _ => none | .shl _ _ => none
  | .ldI _ => none | .jpV0 _ => none | .rnd _ _ => none | .ldVxDT _ => none | .ldVxK _ => none | .ldDTVx _ => none
  | .ldSTVx _ => none | .addI _ => none | .ldF _ => none

/-! ## Faults, as the rules write them -/

/-- The state after a handler raised r (60_exceptions.md R202): the state before the action, so pc = A, and
run = Halted(r) as the only change. s is the handler's state, whose pc is A + 2. -/
def haltedAt (r : FaultRecord) (s : State) : State := { s with pc := s.pc - 2, run := .halted r }

/-! ## The sprite mask (43_display.md R170) -/

/-- Pixel (px, py) of the sprite mask placed at (x mod 64, y mod 32) with toroidal wrap: some 1 bit of some row lands
there. -/
def maskOn (x y : Nat) (rows : List Byte) (px : Fin 64) (py : Fin 32) : Prop :=
  ∃ r b : Nat, ∃ row : Byte, rows[r]? = some row ∧ b < 8 ∧ row.getLsbD (7 - b) = true ∧
    px.val = (x + b) % 64 ∧ py.val = (y + r) % 32

/-! ## The invariant of every run -/

/-- The info a fatal fault's record can hold (R200). -/
def FaultRecordLegal : FaultRecord → Prop
  | .stackOverflow _ sp => sp = 15
  | .stackUnderflow _ sp => sp = 0
  | .outOfRangeMemory _ addr => 0x1000 ≤ addr
  | .outOfRangeKey _ key => 15 < key.toNat

/-- What holds of every state a run reaches. -/
structure Inv (s : State) : Prop where
  /-- memory is in its canonical form, inside 0x000..0xFFF (20_memory.md R46) -/
  memWf : s.mem.wf
  /-- SP never leaves 0..15 (10_state.md R25) -/
  spLegal : s.SP.toNat ≤ 15
  /-- pc never exceeds 0x10FE (40_flow.md R110) -/
  pcBound : s.pc.toNat ≤ 0x10FE
  /-- a return address is at most 0x1000 (R110) -/
  stackBound : ∀ j : Fin 16, s.stack[j].toNat ≤ 0x1000
  /-- stack[0] is never written after reset (10_state.md R27) -/
  stackBottom : s.stack[0] = 0x0000
  /-- a halted core stands at the faulting instruction, with a record R200 allows (60_exceptions.md R202, R200) -/
  haltedAtA : ∀ r, s.run = .halted r → r.fetchAddr = s.pc ∧ FaultRecordLegal r
  /-- the log holds UNKNOWN words only, fetched from inside memory (30_encoding.md R87) -/
  diagUnknown : ∀ e ∈ s.diag, decodeWord e.w = .unknown e.w ∧ e.A.toNat ≤ 0xFFE

/-! ## A good end of a run -/

/-- The run has ended well at the idle address E (70_reset_and_hazards.md R233): mem[E] ‖ mem[E+1] = 0x1000 | E, a
`JP E` to itself, run = Running and pc = E. -/
def EndedWell (E : Word) (s : State) : Prop :=
  E.toNat ≤ 0xFFE ∧ joinBytes (s.mem.read E.toNat) (s.mem.read (E.toNat + 1)) = 0x1000 ||| E ∧
    s.run = .running ∧ s.pc = E

end Sys2Proof
end

