-- ==== Sys2Proof/Certificates/Slice0/Obligations.lean ====
section
/-! DEFINITION. The statements for the provers. exec is entered as 30_encoding.md R83 has it: s.pc is A + 2, so A is
s.pc - 2. A fatal fault is a next state, `haltedAt` (60_exceptions.md R202, log 1). -/

open Sys2Proof Sys2Proof.Machine

/-! ## Encoding and decoding -/

/-- Decoding the bytes of any instruction, whatever follows them, gives that instruction back with every operand, and
the bytes that follow (30_encoding.md R70 to R74, R76). -/
def Obligations.DecodeOfEncodeIsTheInstruction : Prop :=
  ∀ (i : Instr) (rest : List Byte), i.wellFormed = true → decode (encodeBytes i ++ rest) = .ok (i, rest)

/-- Each word has one meaning: a word that decodes to an instruction is that instruction's word, the ignored y field of
SHR and SHL among its bits (R75, R128, R130). -/
def Obligations.EncodeOfDecodeIsTheWord : Prop :=
  ∀ (w : Word) (i : Instr), decodeWord w = .known i → encode i = w

/-- R74: a word spells an instruction exactly when `(w & mask) = match` for its row; the rows are the 34 of the table;
a word that matches none is UNKNOWN, and only such a word. -/
def Obligations.DecoderReadsTheOpcodeTable : Prop :=
  opcodeRows.length = 34 ∧
    ∀ w : Word,
      (∀ row ∈ opcodeRows, (w &&& row.mask = row.val ↔ ∃ i, decodeWord w = .known i ∧ i.row = row)) ∧
        (decodeWord w = .unknown w ↔ ∀ row ∈ opcodeRows, w &&& row.mask ≠ row.val)

/-- R77: the UNKNOWN words, family by family, read off the word as a number (its counts are not stated here). -/
def Obligations.UnknownWordsAreTheseFamilies : Prop :=
  ∀ w : Word,
    let op := w.toNat / 4096
    let n := w.toNat % 16
    let kk := w.toNat % 256
    (∃ u, decodeWord w = .unknown u) ↔
      (op = 0x0 ∧ w ≠ 0x00E0 ∧ w ≠ 0x00EE) ∨ (op = 0x5 ∧ n ≠ 0) ∨
        (op = 0x8 ∧ n ∈ [0x8, 0x9, 0xA, 0xB, 0xC, 0xD, 0xF]) ∨ (op = 0x9 ∧ n ≠ 0) ∨
          (op = 0xE ∧ kk ∉ [0x9E, 0xA1]) ∨
            (op = 0xF ∧ kk ∉ [0x07, 0x0A, 0x15, 0x18, 0x1E, 0x29, 0x33, 0x55, 0x65])

/-- Words written out in the spec's examples decode to what they are there, one or more for each family (40_flow.md to
44_timers_input.md, 95_test_vectors.md). -/
def Obligations.WrittenOutWordsDecode : Prop :=
  decodeWord 0x00E0 = .known .cls ∧ decodeWord 0x00EE = .known .ret ∧ decodeWord 0x1234 = .known (.jp 0x234) ∧
    decodeWord 0x2210 = .known (.call 0x210) ∧ decodeWord 0x3305 = .known (.seImm 3 0x05) ∧
    decodeWord 0x4000 = .known (.sneImm 0 0x00) ∧ decodeWord 0x7003 = .known (.addImm 0 0x03) ∧
    decodeWord 0x5120 = .known (.seReg 1 2) ∧ decodeWord 0x6A2B = .known (.ldImm 10 0x2B) ∧
    decodeWord 0x8124 = .known (.addReg 1 2) ∧ decodeWord 0x9120 = .known (.sneReg 1 2) ∧
    decodeWord 0xA300 = .known (.ldI 0x300) ∧ decodeWord 0xB300 = .known (.jpV0 0x300) ∧
    decodeWord 0xC30F = .known (.rnd 3 0x0F) ∧ decodeWord 0xD015 = .known (.drw 0 1 5) ∧
    decodeWord 0xE59E = .known (.skp 5) ∧ decodeWord 0xF30A = .known (.ldVxK 3) ∧
    decodeWord 0xF265 = .known (.loadRegs 2) ∧ decodeWord 0x0FFF = .unknown 0x0FFF ∧
    decodeWord 0x5121 = .unknown 0x5121

/-! ## The step -/

/-- R82, R86, R87: Step does nothing in WaitKey and in Halted; in Running it fetches at pc, big-endian, faults when a
byte of the fetch is at or above 0x1000 (pc as it was), and otherwise advances pc by 2 and executes: the decoded
instruction by exec, an UNKNOWN word by reporting (A, w). -/
def Obligations.StepRunsTheDecodedInstruction : Prop :=
  ∀ s : State,
    (∀ r, s.run = .halted r → step s = .next s) ∧ (∀ x, s.run = .waitKey x → step s = .next s) ∧
      (s.run = .running →
        (0xFFF ≤ s.pc.toNat →
          step s = .next { s with run := .halted (.outOfRangeMemory s.pc (max s.pc.toNat 0x1000)) }) ∧
          (s.pc.toNat ≤ 0xFFE →
            ∀ w : Word,
              w.toNat = (s.mem.read s.pc.toNat).toNat * 256 + (s.mem.read (s.pc.toNat + 1)).toNat →
                (∀ i, decodeWord w = .known i → step s = exec i { s with pc := s.pc + 2 }) ∧
                  (decodeWord w = .unknown w →
                    step s = .next { s with pc := s.pc + 2, diag := s.diag ++ [⟨s.pc, w⟩] })))

/-- Fetch is coherent with stores (20_memory.md R59): a pair of bytes that Fx55 stored is fetched, big-endian, by the
very next fetch there. -/
def Obligations.StoredBytesAreFetchedNext : Prop :=
  ∀ (x k : Reg) (hk : k.val + 1 < 16) (s : State) (A : Word),
    s.mem.wf → s.I.toNat + x.val < 0x1000 → k.val + 1 ≤ x.val → A.toNat = s.I.toNat + k.val →
      ∃ t, exec (.storeRegs x) s = .next t ∧
        (t.setPc A).fetch = .ok (joinBytes (s.reg k) (s.reg ⟨k.val + 1, hk⟩))

/-- R202: taking a fatal fault is precise (the state before the Step, with run alone changed, and pc = A), in Halted no
action of the host changes anything, and Halted is never a successful end of a run. -/
def Obligations.FatalFaultIsPreciseAndFinal : Prop :=
  (∀ (s t : State) (r : FaultRecord), s.run = .running → step s = .next t → t.run = .halted r →
      t = { s with run := .halted r } ∧ r.fetchAddr = s.pc) ∧
    ∀ (s : State) (r : FaultRecord), s.run = .halted r →
      step s = .next s ∧ tick s = s ∧ (∀ k, keyDown k s = s ∧ keyUp k s = s) ∧ ∀ E, ¬EndedWell E s

/-- Each instruction can raise at most one kind of fatal fault (60_exceptions.md R200, R204), with the fetch address
A in its record and a legal value there, and is halted as R202 has it. -/
def Obligations.EachInstructionRaisesOneFaultKind : Prop :=
  ∀ (i : Instr) (s t : State) (r : FaultRecord), s.run = .running → exec i s = .next t → t.run = .halted r →
    i.faultKind = some r.kind ∧ r.fetchAddr = s.pc - 2 ∧ FaultRecordLegal r ∧ t = haltedAt r s

/-- R52: an instruction whose range base..base+m-1 reaches 0x1000 raises OutOfRangeMemory with the lowest such address
and writes nothing; so does a fetch; Dxyn with n = 0 cannot fault. -/
def Obligations.WholeRangeIsCheckedFirst : Prop :=
  (∀ (i : Instr) (s : State), 0 < i.accessLength → 0x1000 < s.I.toNat + i.accessLength →
      exec i s = .next (haltedAt (.outOfRangeMemory (s.pc - 2) (max s.I.toNat 0x1000)) s)) ∧
    (∀ (i : Instr) (s t : State), s.run = .running →
      (i.accessLength = 0 ∨ s.I.toNat + i.accessLength ≤ 0x1000) → exec i s = .next t →
        ∀ A a, t.run ≠ .halted (.outOfRangeMemory A a)) ∧
    (∀ (x y : Reg) (s : State), ∃ t, exec (.drw x y 0) s = .next t ∧ t.run = s.run) ∧
    ∀ s : State, s.run = .running → 0x1000 < s.pc.toNat + 2 →
      step s = .next { s with run := .halted (.outOfRangeMemory s.pc (max s.pc.toNat 0x1000)) }

/-! ## Control transfer -/

/-- R100, 00EE RET: StackUnderflow at SP = 0; else pc is the entry at SP, SP goes down by one, and nothing else changes
(the entry is not cleared). -/
def Obligations.ReturnPopsTheCallStack : Prop :=
  decodeWord 0x00EE = .known .ret ∧
    ∀ s : State,
      (s.SP = 0 → exec .ret s = .next (haltedAt (.stackUnderflow (s.pc - 2) 0) s)) ∧
        ∀ j : Fin 16, 0 < j.val → s.SP.toNat = j.val →
          ∃ t, exec .ret s = .next t ∧ t.pc = s.stack[j] ∧ t.SP.toNat = j.val - 1 ∧ OnlyChanges [.pc, .SP] s t

/-- R101, 1nnn JP: pc is nnn, zero-extended. -/
def Obligations.JumpSetsPc : Prop :=
  ∀ nnn : BitVec 12, decodeWord (wordA 0x1000 nnn) = .known (.jp nnn) ∧
    ∀ s : State, ∃ t, exec (.jp nnn) s = .next t ∧ t.pc.toNat = nnn.toNat ∧ OnlyChanges [.pc] s t

/-- R102, 2nnn CALL: StackOverflow at SP = 15; else SP goes up by one, the entry there is A + 2, and pc is nnn. -/
def Obligations.CallPushesTheReturnAddress : Prop :=
  ∀ nnn : BitVec 12, decodeWord (wordA 0x2000 nnn) = .known (.call nnn) ∧
    ∀ s : State,
      (s.SP = 15 → exec (.call nnn) s = .next (haltedAt (.stackOverflow (s.pc - 2) 15) s)) ∧
        ∀ j : Fin 16, s.SP.toNat + 1 = j.val →
          ∃ t, exec (.call nnn) s = .next t ∧ t.SP.toNat = j.val ∧ t.stack[j] = s.pc ∧
            (∀ k : Fin 16, k ≠ j → t.stack[k] = s.stack[k]) ∧ t.pc.toNat = nnn.toNat ∧
              OnlyChanges [.SP, .stack, .pc] s t

/-- R103, Bnnn JP V0: pc is the exact sum nnn + V0, with no 12-bit wrap. -/
def Obligations.JumpAddsV0 : Prop :=
  ∀ nnn : BitVec 12, decodeWord (wordA 0xB000 nnn) = .known (.jpV0 nnn) ∧
    ∀ s : State, ∃ t, exec (.jpV0 nnn) s = .next t ∧ t.pc.toNat = nnn.toNat + (s.reg 0).toNat ∧ OnlyChanges [.pc] s t

/-- R104, R105: 3xkk skips exactly on equality with the immediate, 4xkk exactly on inequality; a skip is 2 more on pc,
mod 0x10000, and nothing else changes. -/
def Obligations.SkipOnImmediate : Prop :=
  ∀ (x : Reg) (kk : Byte),
    decodeWord (wordXK 0x3000 x kk) = .known (.seImm x kk) ∧ decodeWord (wordXK 0x4000 x kk) = .known (.sneImm x kk) ∧
      ∀ s : State,
        (∃ t, exec (.seImm x kk) s = .next t ∧
          t.pc.toNat = (if s.reg x = kk then (s.pc.toNat + 2) % 0x10000 else s.pc.toNat) ∧ OnlyChanges [.pc] s t) ∧
          ∃ t, exec (.sneImm x kk) s = .next t ∧
            t.pc.toNat = (if s.reg x = kk then s.pc.toNat else (s.pc.toNat + 2) % 0x10000) ∧ OnlyChanges [.pc] s t

/-- R106, R107: 5xy0 skips exactly when the registers are equal, 9xy0 exactly when they differ; with bits 3:0 other than
0 the words are UNKNOWN. -/
def Obligations.SkipOnRegisters : Prop :=
  ∀ x y : Reg,
    decodeWord (wordXY 0x5000 x y) = .known (.seReg x y) ∧ decodeWord (wordXY 0x9000 x y) = .known (.sneReg x y) ∧
      (∀ n : Fin 16, n ≠ 0 →
        decodeWord (wordXYN 0x5000 x y n) = .unknown (wordXYN 0x5000 x y n) ∧
          decodeWord (wordXYN 0x9000 x y n) = .unknown (wordXYN 0x9000 x y n)) ∧
      ∀ s : State,
        (∃ t, exec (.seReg x y) s = .next t ∧
          t.pc.toNat = (if s.reg x = s.reg y then (s.pc.toNat + 2) % 0x10000 else s.pc.toNat) ∧
            OnlyChanges [.pc] s t) ∧
          ∃ t, exec (.sneReg x y) s = .next t ∧
            t.pc.toNat = (if s.reg x = s.reg y then s.pc.toNat else (s.pc.toNat + 2) % 0x10000) ∧
              OnlyChanges [.pc] s t

/-- A RET after a CALL, wherever it is fetched, comes back to the instruction after the CALL with SP as it was
(40_flow.md R100, R102). -/
def Obligations.ReturnUndoesCall : Prop :=
  ∀ (nnn : BitVec 12) (s : State) (p : Word), s.SP.toNat < 15 →
    ∃ t u, exec (.call nnn) s = .next t ∧ exec .ret (t.setPc p) = .next u ∧ u.pc = s.pc ∧ u.SP = s.SP

/-! ## Register loads and the ALU -/

/-- R120, R121: 6xkk loads the immediate; 7xkk adds it mod 256, with no flag. -/
def Obligations.LoadAndAddImmediate : Prop :=
  ∀ (x : Reg) (kk : Byte),
    decodeWord (wordXK 0x6000 x kk) = .known (.ldImm x kk) ∧ decodeWord (wordXK 0x7000 x kk) = .known (.addImm x kk) ∧
      ∀ s : State,
        (∃ t, exec (.ldImm x kk) s = .next t ∧ t.reg x = kk ∧ OnlyRegs [x] s t ∧ OnlyChanges [.V] s t) ∧
          ∃ t, exec (.addImm x kk) s = .next t ∧ (t.reg x).toNat = ((s.reg x).toNat + kk.toNat) % 256 ∧
            OnlyRegs [x] s t ∧ OnlyChanges [.V] s t

/-- R122 to R125: 8xy0 copies; 8xy1, 8xy2, 8xy3 are OR, AND, XOR on all 8 bits; none writes VF unless x is F. -/
def Obligations.CopyAndBitwise : Prop :=
  ∀ x y : Reg,
    decodeWord (wordXY 0x8000 x y) = .known (.ldReg x y) ∧ decodeWord (wordXY 0x8001 x y) = .known (.orReg x y) ∧
      decodeWord (wordXY 0x8002 x y) = .known (.andReg x y) ∧ decodeWord (wordXY 0x8003 x y) = .known (.xorReg x y) ∧
        ∀ s : State,
          (∃ t, exec (.ldReg x y) s = .next t ∧ t.reg x = s.reg y ∧ OnlyRegs [x] s t ∧ OnlyChanges [.V] s t) ∧
            (∃ t, exec (.orReg x y) s = .next t ∧
              (∀ b, b < 8 → (t.reg x).getLsbD b = ((s.reg x).getLsbD b || (s.reg y).getLsbD b)) ∧
                OnlyRegs [x] s t ∧ OnlyChanges [.V] s t) ∧
              (∃ t, exec (.andReg x y) s = .next t ∧
                (∀ b, b < 8 → (t.reg x).getLsbD b = ((s.reg x).getLsbD b && (s.reg y).getLsbD b)) ∧
                  OnlyRegs [x] s t ∧ OnlyChanges [.V] s t) ∧
                ∃ t, exec (.xorReg x y) s = .next t ∧
                  (∀ b, b < 8 → (t.reg x).getLsbD b = ((s.reg x).getLsbD b != (s.reg y).getLsbD b)) ∧
                    OnlyRegs [x] s t ∧ OnlyChanges [.V] s t

/-- R126, 8xy4 ADD: Vx is the sum mod 256; VF, when x is not F, is the carry; with x = F the sum stands (decision
D11). -/
def Obligations.AddSetsCarry : Prop :=
  ∀ x y : Reg, decodeWord (wordXY 0x8004 x y) = .known (.addReg x y) ∧
    ∀ s : State, ∃ t, exec (.addReg x y) s = .next t ∧
      (t.reg x).toNat = ((s.reg x).toNat + (s.reg y).toNat) % 256 ∧
        (x ≠ VF → (t.reg VF).toNat = if 255 < (s.reg x).toNat + (s.reg y).toNat then 1 else 0) ∧
          OnlyRegs [VF, x] s t ∧ OnlyChanges [.V] s t

/-- R127, R129: 8xy5 is Vx − Vy and 8xy7 is Vy − Vx, mod 256; VF, when x is not F, is 1 exactly when the minuend is
STRICTLY greater; with x = F the difference stands (decision D11). -/
def Obligations.SubtractSetsStrictNotBorrow : Prop :=
  ∀ x y : Reg,
    decodeWord (wordXY 0x8005 x y) = .known (.subReg x y) ∧ decodeWord (wordXY 0x8007 x y) = .known (.subnReg x y) ∧
      ∀ s : State,
        (∃ t, exec (.subReg x y) s = .next t ∧
          ((t.reg x).toNat : Int) = (((s.reg x).toNat : Int) - ((s.reg y).toNat : Int)) % 256 ∧
            (x ≠ VF → (t.reg VF).toNat = if (s.reg x).toNat > (s.reg y).toNat then 1 else 0) ∧
              OnlyRegs [VF, x] s t ∧ OnlyChanges [.V] s t) ∧
          ∃ t, exec (.subnReg x y) s = .next t ∧
            ((t.reg x).toNat : Int) = (((s.reg y).toNat : Int) - ((s.reg x).toNat : Int)) % 256 ∧
              (x ≠ VF → (t.reg VF).toNat = if (s.reg y).toNat > (s.reg x).toNat then 1 else 0) ∧
                OnlyRegs [VF, x] s t ∧ OnlyChanges [.V] s t

/-- R128, R130: 8xy6 and 8xyE shift Vx by one; VF, when x is not F, is the bit shifted out; Vy is neither read nor
written; with x = F the result stands (decision D11). -/
def Obligations.ShiftsMoveOneBit : Prop :=
  ∀ x y : Reg,
    decodeWord (wordXY 0x8006 x y) = .known (.shr x y) ∧ decodeWord (wordXY 0x800E x y) = .known (.shl x y) ∧
      ∀ s : State,
        (∃ t, exec (.shr x y) s = .next t ∧ (t.reg x).toNat = (s.reg x).toNat / 2 ∧
          (x ≠ VF → (t.reg VF).toNat = (s.reg x).toNat % 2) ∧ OnlyRegs [VF, x] s t ∧ OnlyChanges [.V] s t) ∧
          ∃ t, exec (.shl x y) s = .next t ∧ (t.reg x).toNat = (s.reg x).toNat * 2 % 256 ∧
            (x ≠ VF → (t.reg VF).toNat = (s.reg x).toNat / 128) ∧ OnlyRegs [VF, x] s t ∧ OnlyChanges [.V] s t

/-- R133 (decision D11): the final VF of the five flag-writing ALU instructions with destination VF is the result, and
with y = F and x ≠ F the operand b is VF's value before the instruction. -/
def Obligations.ResultOverwritesTheFlagInVF : Prop :=
  (∀ (y : Reg) (s : State), ∃ t4 t5 t6 t7 tE,
      exec (.addReg VF y) s = .next t4 ∧ (t4.reg VF).toNat = ((s.reg VF).toNat + (s.reg y).toNat) % 256 ∧
        exec (.subReg VF y) s = .next t5 ∧
          ((t5.reg VF).toNat : Int) = (((s.reg VF).toNat : Int) - ((s.reg y).toNat : Int)) % 256 ∧
        exec (.shr VF y) s = .next t6 ∧ (t6.reg VF).toNat = (s.reg VF).toNat / 2 ∧
        exec (.subnReg VF y) s = .next t7 ∧
          ((t7.reg VF).toNat : Int) = (((s.reg y).toNat : Int) - ((s.reg VF).toNat : Int)) % 256 ∧
        exec (.shl VF y) s = .next tE ∧ (tE.reg VF).toNat = (s.reg VF).toNat * 2 % 256) ∧
    ∀ (x : Reg) (s : State), x ≠ VF → ∃ t4 t5 t7,
      exec (.addReg x VF) s = .next t4 ∧ (t4.reg x).toNat = ((s.reg x).toNat + (s.reg VF).toNat) % 256 ∧
        exec (.subReg x VF) s = .next t5 ∧
          ((t5.reg x).toNat : Int) = (((s.reg x).toNat : Int) - ((s.reg VF).toNat : Int)) % 256 ∧
        exec (.subnReg x VF) s = .next t7 ∧
          ((t7.reg x).toNat : Int) = (((s.reg VF).toNat : Int) - ((s.reg x).toNat : Int)) % 256

/-- R131, Cxkk RND: Vx is a fresh byte of the free random source, masked by kk. The byte is a FREE VALUE
(Config.randOracle has no body), and nothing else changes but the model's own draw counter (log 3). -/
def Obligations.RandomByteIsMasked : Prop :=
  ∀ (x : Reg) (kk : Byte), decodeWord (wordXK 0xC000 x kk) = .known (.rnd x kk) ∧
    ∀ s : State, ∃ t, exec (.rnd x kk) s = .next t ∧
      (∀ b, b < 8 → (t.reg x).getLsbD b = ((Config.randOracle s.randDraws).getLsbD b && kk.getLsbD b)) ∧
        t.randDraws = s.randDraws + 1 ∧ OnlyRegs [x] s t ∧ OnlyChanges [.V, .draws] s t

/-! ## The index register and the memory transfers -/

/-- R150, R151, R152: Annn loads I; Fx1E adds Vx to it mod 0x10000 with no flag; Fx29 sets it to Vx * 5, unmasked. -/
def Obligations.IndexRegisterWrites : Prop :=
  (∀ nnn : BitVec 12, decodeWord (wordA 0xA000 nnn) = .known (.ldI nnn) ∧
      ∀ s : State, ∃ t, exec (.ldI nnn) s = .next t ∧ t.I.toNat = nnn.toNat ∧ OnlyChanges [.I] s t) ∧
    ∀ x : Reg, decodeWord (wordX 0xF01E x) = .known (.addI x) ∧ decodeWord (wordX 0xF029 x) = .known (.ldF x) ∧
      ∀ s : State,
        (∃ t, exec (.addI x) s = .next t ∧ t.I.toNat = (s.I.toNat + (s.reg x).toNat) % 0x10000 ∧
          OnlyChanges [.I] s t) ∧
          ∃ t, exec (.ldF x) s = .next t ∧ t.I.toNat = (s.reg x).toNat * 5 ∧ OnlyChanges [.I] s t

/-- R153, Fx33 LD B: the three decimal digits at I, I + 1, I + 2, every other byte unchanged; OutOfRangeMemory, and no
byte written, when I + 2 ≥ 0x1000. -/
def Obligations.DecimalDigitsAreStored : Prop :=
  ∀ x : Reg, decodeWord (wordX 0xF033 x) = .known (.ldB x) ∧
    ∀ s : State,
      (0x1000 ≤ s.I.toNat + 2 →
        exec (.ldB x) s = .next (haltedAt (.outOfRangeMemory (s.pc - 2) (max s.I.toNat 0x1000)) s)) ∧
        (s.mem.wf → s.I.toNat + 2 < 0x1000 →
          ∃ t, exec (.ldB x) s = .next t ∧ (t.mem.read s.I.toNat).toNat = (s.reg x).toNat / 100 ∧
            (t.mem.read (s.I.toNat + 1)).toNat = (s.reg x).toNat / 10 % 10 ∧
              (t.mem.read (s.I.toNat + 2)).toNat = (s.reg x).toNat % 10 ∧
                OnlyBytes s.I.toNat 3 s t ∧ OnlyChanges [.mem] s t)

/-- R154, Fx55 LD [I], Vx: V0..Vx at I..I+x, every other byte unchanged; OutOfRangeMemory, and no byte written, when
I + x ≥ 0x1000. -/
def Obligations.RegistersAreStored : Prop :=
  ∀ x : Reg, decodeWord (wordX 0xF055 x) = .known (.storeRegs x) ∧
    ∀ s : State,
      (0x1000 ≤ s.I.toNat + x.val →
        exec (.storeRegs x) s = .next (haltedAt (.outOfRangeMemory (s.pc - 2) (max s.I.toNat 0x1000)) s)) ∧
        (s.mem.wf → s.I.toNat + x.val < 0x1000 →
          ∃ t, exec (.storeRegs x) s = .next t ∧ (∀ k : Reg, k ≤ x → t.mem.read (s.I.toNat + k.val) = s.reg k) ∧
            OnlyBytes s.I.toNat (x.val + 1) s t ∧ OnlyChanges [.mem] s t)

/-- R155, Fx65 LD Vx, [I]: V0..Vx are the bytes at I..I+x, the other registers unchanged; OutOfRangeMemory, and no
register written, when I + x ≥ 0x1000. -/
def Obligations.RegistersAreLoaded : Prop :=
  ∀ x : Reg, decodeWord (wordX 0xF065 x) = .known (.loadRegs x) ∧
    ∀ s : State,
      (0x1000 ≤ s.I.toNat + x.val →
        exec (.loadRegs x) s = .next (haltedAt (.outOfRangeMemory (s.pc - 2) (max s.I.toNat 0x1000)) s)) ∧
        (s.I.toNat + x.val < 0x1000 →
          ∃ t, exec (.loadRegs x) s = .next t ∧ (∀ k : Reg, k ≤ x → t.reg k = s.mem.read (s.I.toNat + k.val)) ∧
            (∀ k : Reg, x < k → t.reg k = s.reg k) ∧ OnlyChanges [.V] s t)

/-- R50, R51: MemRead and MemWrite reach exactly 0x000..0xFFF, with the exact address; a read changes nothing (it
answers no state), and a write sets its byte alone. -/
def Obligations.OneByteAccesses : Prop :=
  ∀ (A : Word) (addr : Nat) (v : Byte) (s : State),
    (addr ≤ 0xFFF → memRead A addr s = .ok (s.mem.read addr)) ∧
      (0x1000 ≤ addr →
        memRead A addr s = .error (.outOfRangeMemory A addr) ∧ memWrite A addr v s = .error (.outOfRangeMemory A addr)) ∧
        (s.mem.wf → addr ≤ 0xFFF →
          ∃ t, memWrite A addr v s = .ok t ∧ t.mem.read addr = v ∧ OnlyBytes addr 1 s t ∧ OnlyChanges [.mem] s t)

/-- A multi-byte access inside memory is the sequence of its one-byte accesses at ascending addresses (20_memory.md
R55): the block read byte by byte, the block write as the chain of MemWrites. -/
def Obligations.BlocksAreAscendingOneByteAccesses : Prop :=
  (∀ (A : Word) (s : State) (base n k : Nat), base + n ≤ 0x1000 → k < n →
      ∃ b, (s.mem.readBytes base n)[k]? = some b ∧ memRead A (base + k) s = .ok b) ∧
    ∀ (A : Word) (s : State) (base : Nat) (bs : List Byte), base + bs.length ≤ 0x1000 →
      bs.zipIdx.foldlM (fun t bk => memWrite A (base + bk.2) bk.1 t) s = .ok (s.setMem (s.mem.writeBytes base bs))

/-! ## Display -/

/-- R167, R168, 00E0 CLS: every pixel is off; VF and everything else unchanged. -/
def Obligations.ClearTurnsEveryPixelOff : Prop :=
  decodeWord 0x00E0 = .known .cls ∧
    ∀ s : State, ∃ t, exec .cls s = .next t ∧ (∀ px py, t.fb.pix px py = false) ∧ OnlyChanges [.fb] s t

/-- R169, Dxyn DRW: draw_sprite of the n bytes at I, at (Vx, Vy) as they were before the instruction; VF is the
collision, whatever x and y are; OutOfRangeMemory, and nothing written, when n > 0 and I + n − 1 ≥ 0x1000; with n = 0
nothing is drawn and VF is 0. -/
def Obligations.DrawSetsCollision : Prop :=
  ∀ (x y : Reg) (n : Fin 16), decodeWord (wordXYN 0xD000 x y n) = .known (.drw x y n) ∧
    ∀ s : State,
      (0 < n.val → 0x1000 ≤ s.I.toNat + n.val - 1 →
        exec (.drw x y n) s = .next (haltedAt (.outOfRangeMemory (s.pc - 2) (max s.I.toNat 0x1000)) s)) ∧
        (n.val = 0 ∨ s.I.toNat + n.val - 1 < 0x1000 →
          ∃ t rows, exec (.drw x y n) s = .next t ∧ rows.length = n.val ∧
            (∀ r, r < n.val → rows[r]? = some (s.mem.read (s.I.toNat + r))) ∧
              t.fb = (drawSprite (s.reg x).toNat (s.reg y).toNat rows s.fb).2 ∧
                (t.reg VF).toNat = (if (drawSprite (s.reg x).toNat (s.reg y).toNat rows s.fb).1 then 1 else 0) ∧
                  (n.val = 0 → t.fb = s.fb ∧ t.reg VF = 0) ∧ OnlyRegs [VF] s t ∧ OnlyChanges [.fb, .V] s t)

/-- draw_sprite of up to 15 rows is XOR with the sprite's mask, wrapped toroidally, and reports a collision exactly when
the old framebuffer and the mask share an on pixel (43_display.md R166, R170). -/
def Obligations.SpriteIsXorWithItsMask : Prop :=
  ∀ (x y : Nat) (rows : List Byte) (fb : Framebuffer), rows.length ≤ 15 →
    (∀ px py, (drawSprite x y rows fb).2.pix px py = true ↔ (fb.pix px py = true ↔ ¬maskOn x y rows px py)) ∧
      ((drawSprite x y rows fb).1 = true ↔ ∃ px py, fb.pix px py = true ∧ maskOn x y rows px py)

/-- Drawing the same sprite twice at the same place restores the framebuffer. By draw_sprite (43_display.md R166) the
second draw collides exactly when some pixel of the mask was off before the first; when the first draw did not collide,
that is exactly when the sprite has a 1 bit. The last clause of R170, which is derived, says the latter of every
framebuffer; R166 does not give it where the first draw collided, and the model follows R166 (log 10, DEDUCED). -/
def Obligations.DoubleDrawRestores : Prop :=
  ∀ (x y : Nat) (rows : List Byte) (fb : Framebuffer), rows.length ≤ 15 →
    (drawSprite x y rows (drawSprite x y rows fb).2).2 = fb ∧
      ((drawSprite x y rows (drawSprite x y rows fb).2).1 = true ↔
        ∃ px py, fb.pix px py = false ∧ maskOn x y rows px py) ∧
        ((drawSprite x y rows fb).1 = false →
          ((drawSprite x y rows (drawSprite x y rows fb).2).1 = true ↔ ∃ row ∈ rows, row ≠ 0))

/-! ## Keys and timers -/

/-- R180, R181: Ex9E skips exactly when key Vx is down, ExA1 exactly when it is up; OutOfRangeKey when Vx > 15. -/
def Obligations.SkipOnKeyLevel : Prop :=
  ∀ x : Reg, decodeWord (wordX 0xE09E x) = .known (.skp x) ∧ decodeWord (wordX 0xE0A1 x) = .known (.sknp x) ∧
    ∀ s : State,
      (15 < (s.reg x).toNat →
        exec (.skp x) s = .next (haltedAt (.outOfRangeKey (s.pc - 2) (s.reg x)) s) ∧
          exec (.sknp x) s = .next (haltedAt (.outOfRangeKey (s.pc - 2) (s.reg x)) s)) ∧
        ∀ k : Key, (s.reg x).toNat = k.val →
          (∃ t, exec (.skp x) s = .next t ∧
            t.pc.toNat = (if s.keyIsDown k then (s.pc.toNat + 2) % 0x10000 else s.pc.toNat) ∧ OnlyChanges [.pc] s t) ∧
            ∃ t, exec (.sknp x) s = .next t ∧
              t.pc.toNat = (if s.keyIsDown k then s.pc.toNat else (s.pc.toNat + 2) % 0x10000) ∧ OnlyChanges [.pc] s t

/-- R182, R184, R185: Fx07 reads DT; Fx15 and Fx18 set DT and ST; the tone takes the new ST at once. -/
def Obligations.TimerLoads : Prop :=
  ∀ x : Reg, decodeWord (wordX 0xF007 x) = .known (.ldVxDT x) ∧ decodeWord (wordX 0xF015 x) = .known (.ldDTVx x) ∧
    decodeWord (wordX 0xF018 x) = .known (.ldSTVx x) ∧
      ∀ s : State,
        (∃ t, exec (.ldVxDT x) s = .next t ∧ t.reg x = s.DT ∧ OnlyRegs [x] s t ∧ OnlyChanges [.V] s t) ∧
          (∃ t, exec (.ldDTVx x) s = .next t ∧ t.DT = s.reg x ∧ OnlyChanges [.DT] s t) ∧
            ∃ t, exec (.ldSTVx x) s = .next t ∧ t.ST = s.reg x ∧ (t.tone = true ↔ s.reg x ≠ 0) ∧ OnlyChanges [.ST] s t

/-- R183, Fx0A LD Vx, K: enter WaitKey(x), pc staying at A + 2, whatever keys are down; there Step does nothing, Tick
counts on and KeyUp does not end the wait; KeyDown(k) ends it with Vx = k and run = Running, and of the key levels
sets that of k alone. -/
def Obligations.KeyWaitEndsOnKeyDownOnly : Prop :=
  ∀ x : Reg, decodeWord (wordX 0xF00A x) = .known (.ldVxK x) ∧
    ∀ s : State, ∃ t, exec (.ldVxK x) s = .next t ∧ t.run = .waitKey x ∧ OnlyChanges [.run] s t ∧
      step t = .next t ∧ (tick t).run = .waitKey x ∧ (tick t).DT.toNat = s.DT.toNat - 1 ∧
        (tick t).ST.toNat = s.ST.toNat - 1 ∧
          ∀ k : Key, (keyUp k t).run = .waitKey x ∧ (keyDown k t).run = .running ∧ ((keyDown k t).reg x).toNat = k.val ∧
            OnlyRegs [x] t (keyDown k t) ∧ OnlyChanges [.V, .run, .keys] t (keyDown k t) ∧
              (keyDown k t).keyIsDown k = true ∧ ∀ j : Key, j ≠ k → (keyDown k t).keyIsDown j = s.keyIsDown j

/-! ## The host's actions -/

/-- R208, Tick: in Running and in WaitKey, DT and ST each go down by one unless 0, and nothing else changes; in Halted
nothing does. -/
def Obligations.TickCountsDown : Prop :=
  ∀ s : State,
    (∀ r, s.run = .halted r → tick s = s) ∧
      ((∀ r, s.run ≠ .halted r) →
        (tick s).DT.toNat = s.DT.toNat - 1 ∧ (tick s).ST.toNat = s.ST.toNat - 1 ∧
          (s.ST = 1 → s.tone = true ∧ (tick s).tone = false) ∧ OnlyChanges [.DT, .ST] s (tick s))

/-- R209, R210: KeyDown(k) sets the level of k and, in WaitKey(x), also stores k in Vx and resumes; KeyUp(k) clears the
level and nothing else; in Halted neither has an effect. -/
def Obligations.KeyActions : Prop :=
  ∀ (k : Key) (s : State),
    (∀ r, s.run = .halted r → keyDown k s = s ∧ keyUp k s = s) ∧
      ((∀ r, s.run ≠ .halted r) →
        (keyDown k s).keyIsDown k = true ∧ (∀ j : Key, j ≠ k → (keyDown k s).keyIsDown j = s.keyIsDown j) ∧
          (keyUp k s).keyIsDown k = false ∧ (∀ j : Key, j ≠ k → (keyUp k s).keyIsDown j = s.keyIsDown j) ∧
            OnlyChanges [.keys] s (keyUp k s)) ∧
        (s.run = .running → OnlyChanges [.keys] s (keyDown k s)) ∧
          ∀ x, s.run = .waitKey x →
            ((keyDown k s).reg x).toNat = k.val ∧ (keyDown k s).run = .running ∧ OnlyRegs [x] s (keyDown k s) ∧
              OnlyChanges [.keys, .V, .run] s (keyDown k s)

/-- R61, LoadFont: the 80 bytes at 0x000..0x04F, and nothing else. -/
def Obligations.FontIsLoadedAtZero : Prop :=
  ∀ (f : List Byte) (s : State), f.length = 80 → s.mem.wf →
    (∀ i, i < 80 → f[i]? = some ((loadFont f s).mem.read i)) ∧ OnlyBytes 0x000 80 s (loadFont f s) ∧
      OnlyChanges [.mem] s (loadFont f s)

/-- R62, LoadProgram: over 3584 bytes, RomTooLarge and no change at all; else Ok, the bytes from 0x200 on, and nothing
else. -/
def Obligations.ProgramIsLoadedOrRefusedWhole : Prop :=
  ∀ (b : List Byte) (s : State),
    (3584 < b.length → loadProgram b s = (.romTooLarge b.length, s)) ∧
      (b.length ≤ 3584 → s.mem.wf →
        (loadProgram b s).1 = .ok ∧ (∀ i, i < b.length → b[i]? = some ((loadProgram b s).2.mem.read (0x200 + i))) ∧
          OnlyBytes 0x200 b.length s (loadProgram b s).2 ∧ OnlyChanges [.mem] s (loadProgram b s).2)

/-- The launch sequence (70_reset_and_hazards.md R231, R63): reset, LoadFont, LoadProgram reaches a running core with
both in memory and everything else at reset; loads are refused after the first Step or Tick and a second time; after
RomTooLarge nothing runs. The refusals' names and the launch's bookkeeping are the model's choice (log 8, log 9). -/
def Obligations.LaunchLoadsOnceBeforeRunning : Prop :=
  (∀ f rom : List Byte, f.length = 80 → rom.length ≤ 3584 →
      ∃ y, System.launchWith f rom = .next y ∧ y.launch = ⟨false, true, some .ok⟩ ∧
        (∀ i, i < 80 → f[i]? = some (y.core.mem.read i)) ∧
          (∀ i, i < rom.length → rom[i]? = some (y.core.mem.read (0x200 + i))) ∧
            OnlyChanges [.mem] State.reset y.core) ∧
    (∀ f rom : List Byte, f.length = 80 → 3584 < rom.length →
      ∃ y, System.launchWith f rom = .next y ∧ y.launch.loadResult = some (.romTooLarge rom.length) ∧
        ∀ a, y.act a = .refused .launchFailed) ∧
      (∀ y : System, y.launch.failed = false → y.launch.started = true →
        ∀ b, y.act (.loadFont b) = .refused .loadAfterStart ∧ y.act (.loadProgram b) = .refused .loadAfterStart) ∧
        (∀ y : System, y.launch.failed = false → y.launch.started = false →
          (y.launch.fontLoaded = true → ∀ f, y.act (.loadFont f) = .refused .fontLoadedTwice) ∧
            (y.launch.loadResult ≠ none → ∀ b, y.act (.loadProgram b) = .refused .programLoadedTwice)) ∧
          ∀ y z : System, (y.act .step = .next z ∨ y.act .tick = .next z) → z.launch.started = true

/-- R230: every element's reset value, as the table gathers them (the model's own randDraws is not among them). -/
def Obligations.ResetValues : Prop :=
  (∀ a, State.reset.mem.read a = 0x00) ∧ (∀ x, State.reset.reg x = 0x00) ∧ State.reset.I = 0x0000 ∧
    State.reset.pc = 0x0200 ∧ State.reset.SP = 0 ∧ (∀ j : Fin 16, State.reset.stack[j] = 0x0000) ∧
      State.reset.DT = 0 ∧ State.reset.ST = 0 ∧ State.reset.tone = false ∧
        (∀ px py, State.reset.fb.pix px py = false) ∧ State.reset.run = .running ∧
          (∀ k : Key, State.reset.keyIsDown k = false) ∧ State.reset.diag = []

/-! ## The whole machine -/

/-- R85: an instruction writes the elements its rule names and no other; one that faults changes pc and run alone, as
R202 has it, and only an instruction that can raise that kind of fault does so. -/
def Obligations.InstructionsWriteOnlyWhatTheyName : Prop :=
  ∀ (i : Instr) (s t : State), exec i s = .next t →
    (∃ r, t = haltedAt r s ∧ i.faultKind = some r.kind) ∨
      (OnlyChanges i.writes s t ∧ OnlyRegs i.destRegs s t ∧ OnlyBytes s.I.toNat i.storeLength s t)

/-- R35: the flag table, for destinations other than VF, each operand being the value before the instruction; and no
other instruction writes VF unless its destination is F. -/
def Obligations.OnlySixInstructionsWriteVFAsAFlag : Prop :=
  (∀ (x y : Reg) (s : State), x ≠ VF →
      (∃ t, exec (.addReg x y) s = .next t ∧
        (t.reg VF = 1 ↔ 255 < (s.reg x).toNat + (s.reg y).toNat) ∧ (t.reg VF = 0 ∨ t.reg VF = 1)) ∧
        (∃ t, exec (.subReg x y) s = .next t ∧
          (t.reg VF = 1 ↔ (s.reg x).toNat > (s.reg y).toNat) ∧ (t.reg VF = 0 ∨ t.reg VF = 1)) ∧
          (∃ t, exec (.shr x y) s = .next t ∧ (t.reg VF).toNat = (s.reg x).toNat % 2) ∧
            (∃ t, exec (.subnReg x y) s = .next t ∧
              (t.reg VF = 1 ↔ (s.reg y).toNat > (s.reg x).toNat) ∧ (t.reg VF = 0 ∨ t.reg VF = 1)) ∧
              ∃ t, exec (.shl x y) s = .next t ∧ (t.reg VF).toNat = (s.reg x).toNat / 128) ∧
    (∀ (x y : Reg) (n : Fin 16) (s t : State), (n.val = 0 ∨ s.I.toNat + n.val ≤ 0x1000) →
      exec (.drw x y n) s = .next t →
        (t.reg VF = 0 ∨ t.reg VF = 1) ∧
          (t.reg VF = 1 ↔
            ∃ px py, s.fb.pix px py = true ∧
              maskOn (s.reg x).toNat (s.reg y).toNat ((List.range n.val).map fun r => s.mem.read (s.I.toNat + r)) px py)) ∧
      (∀ (i : Instr) (s t : State), VF ∉ i.destRegs → exec i s = .next t → t.reg VF = s.reg VF) ∧
        State.reset.reg VF = 0x00

/-- Reset meets the invariant of every run. -/
def Obligations.ResetMeetsTheInvariant : Prop := Inv State.reset

/-- Every step keeps the invariant: canonical memory inside 0x000..0xFFF, SP in 0..15, pc at most 0x10FE, return
addresses at most 0x1000, stack[0] never written, a halted core at its faulting instruction, a log of UNKNOWN words only
(10_state.md R25, R27, R37; 40_flow.md R110; 60_exceptions.md R202; 30_encoding.md R87). -/
def Obligations.StepKeepsTheInvariant : Prop :=
  ∀ s t : State, Inv s → step s = .next t → Inv t

/-- Every host action keeps the invariant of the core (60_exceptions.md R207; 20_memory.md R61, R62). -/
def Obligations.EveryActionKeepsTheInvariant : Prop :=
  ∀ (a : Action) (y z : System), Inv y.core → y.act a = .next z → Inv z.core

/-- The only stop of an instruction is the model's own (log 2, DESIGN CHOICE): RET and CALL stop, by name, in a state
whose SP is above 15, which 10_state.md R25 says SP never is; nothing else stops and nothing is refused. -/
def Obligations.OnlyAnIllegalStackPointerStops : Prop :=
  (∀ (nnn : BitVec 12) (s : State), 15 < s.SP.toNat →
      exec .ret s = .fault (.illegalStackPointer s.SP) ∧ exec (.call nnn) s = .fault (.illegalStackPointer s.SP)) ∧
    ∀ (i : Instr) (s : State),
      (∀ q, exec i s ≠ .refused q) ∧
        ∀ f, exec i s = .fault f →
          f = .illegalStackPointer s.SP ∧ 15 < s.SP.toNat ∧ (i = .ret ∨ ∃ nnn, i = .call nnn)

/-- No instruction is refused and no legal state stops: from every state that meets the invariant a step answers a next
state (the fatal faults of R200 are next states, Halted; log 1). -/
def Obligations.LegalStatesAlwaysStep : Prop :=
  ∀ s : State, Inv s → ∃ t, step s = .next t

/-- At the idle address of 70_reset_and_hazards.md R233 every Step leaves the state unchanged, and a Tick counts DT and
ST down there and leaves the run ended well. -/
def Obligations.IdleSelfJumpIsAFixedPoint : Prop :=
  ∀ (E : Word) (s : State), EndedWell E s →
    step s = .next s ∧ EndedWell E (tick s) ∧ OnlyChanges [.DT, .ST] s (tick s)

/-- No instruction reads the log, and a step appends at most one report to it (10_state.md R34): with any other log
before, a step does the same and appends the same. The two steps draw at the same draw counter, so for RND this rests on
the model's own choice of log 3 (DESIGN CHOICE): equal counters give equal free bytes. -/
def Obligations.LogIsNeverRead : Prop :=
  ∀ s t : State, step s = .next t →
    ∃ new : List DiagEntry, new.length ≤ 1 ∧ t.diag = s.diag ++ new ∧
      ∀ d : List DiagEntry, step { s with diag := d } = .next { t with diag := d ++ new }

/-- No instruction reads ST (10_state.md R29): with any other ST before, an instruction other than Fx18 does the same
and leaves that ST, and Fx18 ends in the same state. The two executions draw at the same draw counter, so for RND this
rests on the model's own choice of log 3 (DESIGN CHOICE): equal counters give equal free bytes. -/
def Obligations.SoundTimerIsNeverRead : Prop :=
  ∀ (i : Instr) (s t : State) (v : Byte), exec i s = .next t →
    ((∃ x, i = .ldSTVx x) → exec i { s with ST := v } = .next t) ∧
      ((∀ x, i ≠ .ldSTVx x) → exec i { s with ST := v } = .next { t with ST := v })

/-- The word that withFetchWord places is the one the very next step fetches and runs (the model's own interface,
log 6). -/
def Obligations.PlacedWordRunsNext : Prop :=
  ∀ (s : State) (w : Nat) (i : Instr), s.mem.wf → decodeTableWord 16 w = some i →
    step (s.withFetchWord 16 w) = exec i (s.withFetchWord 16 w).advance
end

