-- ==== Sys2Proof/Laws/Decode.lean ====
section
/-! SUPPORT. The fields of an encoded word, format by format: the small lemmas of the encoder's three layouts
(30_encoding.md R71, R72), from which decoding an encoded instruction is read off. -/

namespace Sys2Proof

/-! ## Format A -/

@[simp] theorem opField_formatA (op : BitVec 4) (a : BitVec 12) : opField (formatA op a) = op :=
  BitVec.extractLsb'_append_eq_left

@[simp] theorem nnnField_formatA (op : BitVec 4) (a : BitVec 12) : nnnField (formatA op a) = a :=
  BitVec.extractLsb'_append_eq_right

/-! ## Format XK -/

@[simp] theorem opField_formatXK (op : BitVec 4) (x : Reg) (kk : Byte) : opField (formatXK op x kk) = op :=
  (BitVec.extractLsb'_append_eq_of_le (by decide)).trans BitVec.extractLsb'_append_eq_left

@[simp] theorem xField_formatXK (op : BitVec 4) (x : Reg) (kk : Byte) : xField (formatXK op x kk) = x :=
  congrArg BitVec.toFin ((BitVec.extractLsb'_append_eq_of_le (by decide)).trans BitVec.extractLsb'_append_eq_right)

@[simp] theorem kkField_formatXK (op : BitVec 4) (x : Reg) (kk : Byte) : kkField (formatXK op x kk) = kk :=
  BitVec.extractLsb'_append_eq_right

/-! ## Formats XY and XYN -/

@[simp] theorem opField_formatXYN (op : BitVec 4) (x y : Reg) (n : BitVec 4) : opField (formatXYN op x y n) = op :=
  (BitVec.extractLsb'_append_eq_of_le (by decide)).trans
    ((BitVec.extractLsb'_append_eq_of_le (by decide)).trans BitVec.extractLsb'_append_eq_left)

@[simp] theorem xField_formatXYN (op : BitVec 4) (x y : Reg) (n : BitVec 4) : xField (formatXYN op x y n) = x :=
  congrArg BitVec.toFin ((BitVec.extractLsb'_append_eq_of_le (by decide)).trans
    ((BitVec.extractLsb'_append_eq_of_le (by decide)).trans BitVec.extractLsb'_append_eq_right))

@[simp] theorem yField_formatXYN (op : BitVec 4) (x y : Reg) (n : BitVec 4) : yField (formatXYN op x y n) = y :=
  congrArg BitVec.toFin ((BitVec.extractLsb'_append_eq_of_le (by decide)).trans BitVec.extractLsb'_append_eq_right)

@[simp] theorem nField_formatXYN (op : BitVec 4) (x y : Reg) (n : BitVec 4) : nField (formatXYN op x y n) = n :=
  BitVec.extractLsb'_append_eq_right

/-! ## The fields as numbers (R72) -/

theorem opField_toNat (w : Word) : (opField w).toNat = w.toNat / 4096 := by
  simp only [opField, BitVec.extractLsb'_toNat, Nat.shiftRight_eq_div_pow]; omega

theorem xField_val (w : Word) : (xField w).val = w.toNat / 256 % 16 := by
  show (w.extractLsb' 8 4).toNat = _
  simp only [BitVec.extractLsb'_toNat, Nat.shiftRight_eq_div_pow]

theorem yField_val (w : Word) : (yField w).val = w.toNat / 16 % 16 := by
  show (w.extractLsb' 4 4).toNat = _
  simp only [BitVec.extractLsb'_toNat, Nat.shiftRight_eq_div_pow]

theorem nField_toNat (w : Word) : (nField w).toNat = w.toNat % 16 := by
  simp only [nField, BitVec.extractLsb'_toNat, Nat.shiftRight_eq_div_pow]; omega

theorem kkField_toNat (w : Word) : (kkField w).toNat = w.toNat % 256 := by
  simp only [kkField, BitVec.extractLsb'_toNat, Nat.shiftRight_eq_div_pow]; omega

theorem nnnField_toNat (w : Word) : (nnnField w).toNat = w.toNat % 4096 := by
  simp only [nnnField, BitVec.extractLsb'_toNat, Nat.shiftRight_eq_div_pow]; omega

/-! ## The formats as numbers (R71) -/

theorem append_toNat {m n : Nat} (a : BitVec m) (b : BitVec n) : (a ++ b).toNat = a.toNat * 2 ^ n + b.toNat := by
  rw [BitVec.toNat_append, Nat.shiftLeft_eq, Nat.mul_comm, ← Nat.two_pow_add_eq_or_of_lt b.isLt]

theorem formatA_toNat (op : BitVec 4) (a : BitVec 12) : (formatA op a).toNat = op.toNat * 4096 + a.toNat :=
  append_toNat op a

theorem formatXK_toNat (op : BitVec 4) (x : Reg) (kk : Byte) :
    (formatXK op x kk).toNat = op.toNat * 4096 + x.val * 256 + kk.toNat := by
  show (op ++ (BitVec.ofFin x : BitVec 4) ++ kk).toNat = _
  have hx : (BitVec.ofFin x : BitVec 4).toNat = x.val := rfl
  rw [append_toNat, append_toNat, hx]; omega

theorem formatXYN_toNat (op : BitVec 4) (x y : Reg) (n : BitVec 4) :
    (formatXYN op x y n).toNat = op.toNat * 4096 + x.val * 256 + y.val * 16 + n.toNat := by
  show (op ++ (BitVec.ofFin x : BitVec 4) ++ (BitVec.ofFin y : BitVec 4) ++ n).toNat = _
  have hx : (BitVec.ofFin x : BitVec 4).toNat = x.val := rfl
  have hy : (BitVec.ofFin y : BitVec 4).toNat = y.val := rfl
  rw [append_toNat, append_toNat, append_toNat, hx, hy]; omega

/-! ## Bytes and words (R53) -/

/-- R9, R53: `hi ‖ lo` is `hi*256 + lo`. -/
theorem joinBytes_toNat (hi lo : Byte) : (joinBytes hi lo).toNat = hi.toNat * 256 + lo.toNat := append_toNat hi lo

theorem hiByte_toNat (w : Word) : (hiByte w).toNat = w.toNat / 256 := by
  simp only [hiByte, BitVec.extractLsb'_toNat, Nat.shiftRight_eq_div_pow]; omega

theorem loByte_toNat (w : Word) : (loByte w).toNat = w.toNat % 256 := by
  simp only [loByte, BitVec.extractLsb'_toNat, Nat.shiftRight_eq_div_pow]; omega

/-- A word is its high byte and its low byte. -/
@[simp] theorem joinBytes_hi_lo (w : Word) : joinBytes (hiByte w) (loByte w) = w := by
  apply BitVec.eq_of_toNat_eq
  rw [joinBytes_toNat, hiByte_toNat, loByte_toNat]; omega

@[simp] theorem hiByte_joinBytes (hi lo : Byte) : hiByte (joinBytes hi lo) = hi :=
  BitVec.extractLsb'_append_eq_left

@[simp] theorem loByte_joinBytes (hi lo : Byte) : loByte (joinBytes hi lo) = lo :=
  BitVec.extractLsb'_append_eq_right

/-! ## The encodings as the rules write them, `match | x<<8 | …`, are the encoder's formats (R71, R74) -/

/-- OR of numbers with no bit in common is their sum. -/
theorem or_eq_add {a b : Nat} (n : Nat) (hb : b < 2 ^ n) (ha : a % 2 ^ n = 0) : a ||| b = a + b := by
  obtain ⟨k, rfl⟩ := Nat.dvd_of_mod_eq_zero ha
  exact (Nat.two_pow_add_eq_or_of_lt hb k).symm

theorem reg_shift8 (x : Reg) : (BitVec.ofNat 16 x.val <<< 8).toNat = x.val * 256 := by
  simp [Nat.shiftLeft_eq]; omega

theorem reg_shift4 (x : Reg) : (BitVec.ofNat 16 x.val <<< 4).toNat = x.val * 16 := by
  simp [Nat.shiftLeft_eq]; omega

/-- The match column of formats A, XK and XYN has its opcode nibble in bits 15:12. -/
theorem match_toNat (op : BitVec 4) : (op ++ 0#12 : Word).toNat = op.toNat * 4096 := by
  rw [append_toNat, BitVec.toNat_ofNat]; omega

theorem wordA_eq (op : BitVec 4) (a : BitVec 12) : wordA (op ++ 0#12) a = formatA op a := by
  apply BitVec.eq_of_toNat_eq
  have hz : (a.zeroExtend 16).toNat = a.toNat := by rw [BitVec.toNat_setWidth]; omega
  have h := match_toNat op
  rw [formatA_toNat, wordA, BitVec.toNat_or, hz, h, or_eq_add 12 a.isLt (by omega)]

theorem wordXK_eq (op : BitVec 4) (x : Reg) (kk : Byte) : wordXK (op ++ 0#12) x kk = formatXK op x kk := by
  apply BitVec.eq_of_toNat_eq
  have hz : (kk.zeroExtend 16).toNat = kk.toNat := by rw [BitVec.toNat_setWidth]; omega
  have h := match_toNat op
  rw [formatXK_toNat, wordXK, BitVec.toNat_or, BitVec.toNat_or, hz, h, reg_shift8,
    or_eq_add (b := x.val * 256) 12 (by omega) (by omega), or_eq_add 8 kk.isLt (by omega)]

theorem wordXYN_eq (op : BitVec 4) (x y n : Fin 16) : wordXYN (op ++ 0#12) x y n = formatXYN op x y (BitVec.ofFin n) := by
  apply BitVec.eq_of_toNat_eq
  have hz : (BitVec.ofNat 16 n.val).toNat = n.val := by rw [BitVec.toNat_ofNat]; omega
  have hf : (BitVec.ofFin n : BitVec 4).toNat = n.val := rfl
  have h := match_toNat op
  rw [formatXYN_toNat, wordXYN, BitVec.toNat_or, BitVec.toNat_or, BitVec.toNat_or, hz, hf, h, reg_shift8, reg_shift4,
    or_eq_add (b := x.val * 256) 12 (by omega) (by omega), or_eq_add (b := y.val * 16) 8 (by omega) (by omega),
    or_eq_add (b := n.val) 4 (by omega) (by omega)]

/-- The match column of an XY row has its function nibble in bits 3:0. -/
theorem wordXY_eq (op f : BitVec 4) (x y : Reg) : wordXY (op ++ 0#8 ++ f) x y = formatXYN op x y f := by
  have e : (op ++ 0#8 ++ f : Word) = (op ++ 0#12) ||| BitVec.ofNat 16 f.toNat := by
    apply BitVec.eq_of_toNat_eq
    have hz : (BitVec.ofNat 16 f.toNat).toNat = f.toNat := by rw [BitVec.toNat_ofNat]; omega
    have h := match_toNat op
    rw [BitVec.toNat_or, h, hz, or_eq_add 4 f.isLt (by omega), append_toNat, append_toNat, BitVec.toNat_ofNat]; omega
  have hn : formatXYN op x y f = wordXYN (op ++ 0#12) x y f.toFin := (wordXYN_eq op x y f.toFin).symm
  have hf : (f.toFin : Fin 16).val = f.toNat := rfl
  simp only [hn, wordXY, wordXYN, e, hf, Fin.val_zero, BitVec.or_zero, BitVec.or_assoc]
  simp only [BitVec.or_comm (BitVec.ofNat 16 f.toNat), BitVec.or_assoc]

/-- The match column of an X row has its function byte in bits 7:0. -/
theorem wordX_eq (op : BitVec 4) (x : Reg) (kk : Byte) : wordX (op ++ 0#4 ++ kk) x = formatXK op x kk := by
  have e : (op ++ 0#4 ++ kk : Word) = (op ++ 0#12) ||| kk.zeroExtend 16 := by
    apply BitVec.eq_of_toNat_eq
    have hz : (kk.zeroExtend 16).toNat = kk.toNat := by rw [BitVec.toNat_setWidth]; omega
    have h := match_toNat op
    rw [BitVec.toNat_or, h, hz, or_eq_add 8 kk.isLt (by omega), append_toNat, append_toNat, BitVec.toNat_ofNat]; omega
  rw [← wordXK_eq, wordX, wordXK, e, BitVec.or_assoc, BitVec.or_assoc, BitVec.or_comm (kk.zeroExtend 16)]

/-! ## First-level dispatch, nibble by nibble (R76) -/

/-- A nibble is one of sixteen. -/
theorem nibble_cases (o : BitVec 4) :
    o = 0x0 ∨ o = 0x1 ∨ o = 0x2 ∨ o = 0x3 ∨ o = 0x4 ∨ o = 0x5 ∨ o = 0x6 ∨ o = 0x7 ∨ o = 0x8 ∨ o = 0x9 ∨ o = 0xA ∨
      o = 0xB ∨ o = 0xC ∨ o = 0xD ∨ o = 0xE ∨ o = 0xF := by
  revert o; decide

theorem decodeWord_op0 ⦃w : Word⦄ (h : opField w = 0x0) : decodeWord w = decodeFamily0 w := by
  simp [decodeWord, h]

theorem decodeWord_op1 ⦃w : Word⦄ (h : opField w = 0x1) : decodeWord w = .known (.jp (nnnField w)) := by
  simp [decodeWord, h]

theorem decodeWord_op2 ⦃w : Word⦄ (h : opField w = 0x2) : decodeWord w = .known (.call (nnnField w)) := by
  simp [decodeWord, h]

theorem decodeWord_op3 ⦃w : Word⦄ (h : opField w = 0x3) : decodeWord w = .known (.seImm (xField w) (kkField w)) := by
  simp [decodeWord, h]

theorem decodeWord_op4 ⦃w : Word⦄ (h : opField w = 0x4) : decodeWord w = .known (.sneImm (xField w) (kkField w)) := by
  simp [decodeWord, h]

theorem decodeWord_op5 ⦃w : Word⦄ (h : opField w = 0x5) : decodeWord w = decodeFamily5 w := by
  simp [decodeWord, h]

theorem decodeWord_op6 ⦃w : Word⦄ (h : opField w = 0x6) : decodeWord w = .known (.ldImm (xField w) (kkField w)) := by
  simp [decodeWord, h]

theorem decodeWord_op7 ⦃w : Word⦄ (h : opField w = 0x7) : decodeWord w = .known (.addImm (xField w) (kkField w)) := by
  simp [decodeWord, h]

theorem decodeWord_op8 ⦃w : Word⦄ (h : opField w = 0x8) : decodeWord w = decodeFamily8 w := by
  simp [decodeWord, h]

theorem decodeWord_op9 ⦃w : Word⦄ (h : opField w = 0x9) : decodeWord w = decodeFamily9 w := by
  simp [decodeWord, h]

theorem decodeWord_opA ⦃w : Word⦄ (h : opField w = 0xA) : decodeWord w = .known (.ldI (nnnField w)) := by
  simp [decodeWord, h]

theorem decodeWord_opB ⦃w : Word⦄ (h : opField w = 0xB) : decodeWord w = .known (.jpV0 (nnnField w)) := by
  simp [decodeWord, h]

theorem decodeWord_opC ⦃w : Word⦄ (h : opField w = 0xC) : decodeWord w = .known (.rnd (xField w) (kkField w)) := by
  simp [decodeWord, h]

theorem decodeWord_opD ⦃w : Word⦄ (h : opField w = 0xD) : decodeWord w = .known (.drw (xField w) (yField w) (nField w).toFin) := by
  simp [decodeWord, h]

theorem decodeWord_opE ⦃w : Word⦄ (h : opField w = 0xE) : decodeWord w = decodeFamilyE w := by
  simp [decodeWord, h]

theorem decodeWord_opF ⦃w : Word⦄ (h : opField w = 0xF) : decodeWord w = decodeFamilyF w := by
  simp [decodeWord, h]

/-! ## A word is put together again from its fields -/

theorem formatA_fields (w : Word) : formatA (opField w) (nnnField w) = w := by
  apply BitVec.eq_of_toNat_eq
  rw [formatA_toNat, opField_toNat, nnnField_toNat]; omega

theorem formatXK_fields (w : Word) : formatXK (opField w) (xField w) (kkField w) = w := by
  apply BitVec.eq_of_toNat_eq
  rw [formatXK_toNat, opField_toNat, xField_val, kkField_toNat]; omega

theorem formatXYN_fields (w : Word) : formatXYN (opField w) (xField w) (yField w) (nField w) = w := by
  apply BitVec.eq_of_toNat_eq
  rw [formatXYN_toNat, opField_toNat, xField_val, yField_val, nField_toNat]; omega

/-! ## What an UNKNOWN answer carries -/

theorem decodeFamily0_unknown {w u : Word} (h : decodeFamily0 w = .unknown u) : u = w := by
  unfold decodeFamily0 at h
  split_ifs at h
  exact (Decoded.unknown.inj h).symm

theorem decodeFamily5_unknown {w u : Word} (h : decodeFamily5 w = .unknown u) : u = w := by
  unfold decodeFamily5 at h
  split_ifs at h
  exact (Decoded.unknown.inj h).symm

theorem decodeFamily8_unknown {w u : Word} (h : decodeFamily8 w = .unknown u) : u = w := by
  unfold decodeFamily8 at h
  split_ifs at h
  exact (Decoded.unknown.inj h).symm

theorem decodeFamily9_unknown {w u : Word} (h : decodeFamily9 w = .unknown u) : u = w := by
  unfold decodeFamily9 at h
  split_ifs at h
  exact (Decoded.unknown.inj h).symm

theorem decodeFamilyE_unknown {w u : Word} (h : decodeFamilyE w = .unknown u) : u = w := by
  unfold decodeFamilyE at h
  split_ifs at h
  exact (Decoded.unknown.inj h).symm

theorem decodeFamilyF_unknown {w u : Word} (h : decodeFamilyF w = .unknown u) : u = w := by
  unfold decodeFamilyF at h
  split_ifs at h
  exact (Decoded.unknown.inj h).symm

/-- R77, R87: the word an UNKNOWN answer carries, which the report names, is the word decoded. -/
theorem decodeWord_unknown {w u : Word} (h : decodeWord w = .unknown u) : u = w := by
  rcases nibble_cases (opField w) with h0 | h0 | h0 | h0 | h0 | h0 | h0 | h0 | h0 | h0 | h0 | h0 | h0 | h0 | h0 | h0
  · exact decodeFamily0_unknown (decodeWord_op0 h0 ▸ h)
  · rw [decodeWord_op1 h0] at h; cases h
  · rw [decodeWord_op2 h0] at h; cases h
  · rw [decodeWord_op3 h0] at h; cases h
  · rw [decodeWord_op4 h0] at h; cases h
  · exact decodeFamily5_unknown (decodeWord_op5 h0 ▸ h)
  · rw [decodeWord_op6 h0] at h; cases h
  · rw [decodeWord_op7 h0] at h; cases h
  · exact decodeFamily8_unknown (decodeWord_op8 h0 ▸ h)
  · exact decodeFamily9_unknown (decodeWord_op9 h0 ▸ h)
  · rw [decodeWord_opA h0] at h; cases h
  · rw [decodeWord_opB h0] at h; cases h
  · rw [decodeWord_opC h0] at h; cases h
  · rw [decodeWord_opD h0] at h; cases h
  · exact decodeFamilyE_unknown (decodeWord_opE h0 ▸ h)
  · exact decodeFamilyF_unknown (decodeWord_opF h0 ▸ h)

end Sys2Proof
end

