-- ==== Sys2Proof/Laws/State.lean ====
section
/-! SUPPORT. One lemma per field per update of State, and what the register and key accessors read after one. -/

namespace Sys2Proof.Machine

variable (s : State)

/-! ### setReg -/

@[simp] theorem State.setReg_mem (x : Reg) (b : Byte) : (s.setReg x b).mem = s.mem := rfl
@[simp] theorem State.setReg_V (x : Reg) (b : Byte) : (s.setReg x b).V = s.V.set x b := rfl
@[simp] theorem State.setReg_I (x : Reg) (b : Byte) : (s.setReg x b).I = s.I := rfl
@[simp] theorem State.setReg_pc (x : Reg) (b : Byte) : (s.setReg x b).pc = s.pc := rfl
@[simp] theorem State.setReg_SP (x : Reg) (b : Byte) : (s.setReg x b).SP = s.SP := rfl
@[simp] theorem State.setReg_stack (x : Reg) (b : Byte) : (s.setReg x b).stack = s.stack := rfl
@[simp] theorem State.setReg_DT (x : Reg) (b : Byte) : (s.setReg x b).DT = s.DT := rfl
@[simp] theorem State.setReg_ST (x : Reg) (b : Byte) : (s.setReg x b).ST = s.ST := rfl
@[simp] theorem State.setReg_fb (x : Reg) (b : Byte) : (s.setReg x b).fb = s.fb := rfl
@[simp] theorem State.setReg_run (x : Reg) (b : Byte) : (s.setReg x b).run = s.run := rfl
@[simp] theorem State.setReg_keys (x : Reg) (b : Byte) : (s.setReg x b).keys = s.keys := rfl
@[simp] theorem State.setReg_diag (x : Reg) (b : Byte) : (s.setReg x b).diag = s.diag := rfl
@[simp] theorem State.setReg_randDraws (x : Reg) (b : Byte) : (s.setReg x b).randDraws = s.randDraws := rfl
@[simp] theorem State.keyIsDown_setReg (x : Reg) (b : Byte) (i : Key) : (s.setReg x b).keyIsDown i = s.keyIsDown i := rfl

/-! ### setI -/

@[simp] theorem State.setI_mem (w : Word) : (s.setI w).mem = s.mem := rfl
@[simp] theorem State.setI_V (w : Word) : (s.setI w).V = s.V := rfl
@[simp] theorem State.setI_I (w : Word) : (s.setI w).I = w := rfl
@[simp] theorem State.setI_pc (w : Word) : (s.setI w).pc = s.pc := rfl
@[simp] theorem State.setI_SP (w : Word) : (s.setI w).SP = s.SP := rfl
@[simp] theorem State.setI_stack (w : Word) : (s.setI w).stack = s.stack := rfl
@[simp] theorem State.setI_DT (w : Word) : (s.setI w).DT = s.DT := rfl
@[simp] theorem State.setI_ST (w : Word) : (s.setI w).ST = s.ST := rfl
@[simp] theorem State.setI_fb (w : Word) : (s.setI w).fb = s.fb := rfl
@[simp] theorem State.setI_run (w : Word) : (s.setI w).run = s.run := rfl
@[simp] theorem State.setI_keys (w : Word) : (s.setI w).keys = s.keys := rfl
@[simp] theorem State.setI_diag (w : Word) : (s.setI w).diag = s.diag := rfl
@[simp] theorem State.setI_randDraws (w : Word) : (s.setI w).randDraws = s.randDraws := rfl
@[simp] theorem State.reg_setI (w : Word) (i : Reg) : (s.setI w).reg i = s.reg i := rfl
@[simp] theorem State.keyIsDown_setI (w : Word) (i : Key) : (s.setI w).keyIsDown i = s.keyIsDown i := rfl

/-! ### setPc -/

@[simp] theorem State.setPc_mem (w : Word) : (s.setPc w).mem = s.mem := rfl
@[simp] theorem State.setPc_V (w : Word) : (s.setPc w).V = s.V := rfl
@[simp] theorem State.setPc_I (w : Word) : (s.setPc w).I = s.I := rfl
@[simp] theorem State.setPc_pc (w : Word) : (s.setPc w).pc = w := rfl
@[simp] theorem State.setPc_SP (w : Word) : (s.setPc w).SP = s.SP := rfl
@[simp] theorem State.setPc_stack (w : Word) : (s.setPc w).stack = s.stack := rfl
@[simp] theorem State.setPc_DT (w : Word) : (s.setPc w).DT = s.DT := rfl
@[simp] theorem State.setPc_ST (w : Word) : (s.setPc w).ST = s.ST := rfl
@[simp] theorem State.setPc_fb (w : Word) : (s.setPc w).fb = s.fb := rfl
@[simp] theorem State.setPc_run (w : Word) : (s.setPc w).run = s.run := rfl
@[simp] theorem State.setPc_keys (w : Word) : (s.setPc w).keys = s.keys := rfl
@[simp] theorem State.setPc_diag (w : Word) : (s.setPc w).diag = s.diag := rfl
@[simp] theorem State.setPc_randDraws (w : Word) : (s.setPc w).randDraws = s.randDraws := rfl
@[simp] theorem State.reg_setPc (w : Word) (i : Reg) : (s.setPc w).reg i = s.reg i := rfl
@[simp] theorem State.keyIsDown_setPc (w : Word) (i : Key) : (s.setPc w).keyIsDown i = s.keyIsDown i := rfl

/-! ### setSP -/

@[simp] theorem State.setSP_mem (b : Byte) : (s.setSP b).mem = s.mem := rfl
@[simp] theorem State.setSP_V (b : Byte) : (s.setSP b).V = s.V := rfl
@[simp] theorem State.setSP_I (b : Byte) : (s.setSP b).I = s.I := rfl
@[simp] theorem State.setSP_pc (b : Byte) : (s.setSP b).pc = s.pc := rfl
@[simp] theorem State.setSP_SP (b : Byte) : (s.setSP b).SP = b := rfl
@[simp] theorem State.setSP_stack (b : Byte) : (s.setSP b).stack = s.stack := rfl
@[simp] theorem State.setSP_DT (b : Byte) : (s.setSP b).DT = s.DT := rfl
@[simp] theorem State.setSP_ST (b : Byte) : (s.setSP b).ST = s.ST := rfl
@[simp] theorem State.setSP_fb (b : Byte) : (s.setSP b).fb = s.fb := rfl
@[simp] theorem State.setSP_run (b : Byte) : (s.setSP b).run = s.run := rfl
@[simp] theorem State.setSP_keys (b : Byte) : (s.setSP b).keys = s.keys := rfl
@[simp] theorem State.setSP_diag (b : Byte) : (s.setSP b).diag = s.diag := rfl
@[simp] theorem State.setSP_randDraws (b : Byte) : (s.setSP b).randDraws = s.randDraws := rfl
@[simp] theorem State.reg_setSP (b : Byte) (i : Reg) : (s.setSP b).reg i = s.reg i := rfl
@[simp] theorem State.keyIsDown_setSP (b : Byte) (i : Key) : (s.setSP b).keyIsDown i = s.keyIsDown i := rfl

/-! ### setStack -/

@[simp] theorem State.setStack_mem (j : Fin 16) (w : Word) : (s.setStack j w).mem = s.mem := rfl
@[simp] theorem State.setStack_V (j : Fin 16) (w : Word) : (s.setStack j w).V = s.V := rfl
@[simp] theorem State.setStack_I (j : Fin 16) (w : Word) : (s.setStack j w).I = s.I := rfl
@[simp] theorem State.setStack_pc (j : Fin 16) (w : Word) : (s.setStack j w).pc = s.pc := rfl
@[simp] theorem State.setStack_SP (j : Fin 16) (w : Word) : (s.setStack j w).SP = s.SP := rfl
@[simp] theorem State.setStack_stack (j : Fin 16) (w : Word) : (s.setStack j w).stack = s.stack.set j w := rfl
@[simp] theorem State.setStack_DT (j : Fin 16) (w : Word) : (s.setStack j w).DT = s.DT := rfl
@[simp] theorem State.setStack_ST (j : Fin 16) (w : Word) : (s.setStack j w).ST = s.ST := rfl
@[simp] theorem State.setStack_fb (j : Fin 16) (w : Word) : (s.setStack j w).fb = s.fb := rfl
@[simp] theorem State.setStack_run (j : Fin 16) (w : Word) : (s.setStack j w).run = s.run := rfl
@[simp] theorem State.setStack_keys (j : Fin 16) (w : Word) : (s.setStack j w).keys = s.keys := rfl
@[simp] theorem State.setStack_diag (j : Fin 16) (w : Word) : (s.setStack j w).diag = s.diag := rfl
@[simp] theorem State.setStack_randDraws (j : Fin 16) (w : Word) : (s.setStack j w).randDraws = s.randDraws := rfl
@[simp] theorem State.reg_setStack (j : Fin 16) (w : Word) (i : Reg) : (s.setStack j w).reg i = s.reg i := rfl
@[simp] theorem State.keyIsDown_setStack (j : Fin 16) (w : Word) (i : Key) : (s.setStack j w).keyIsDown i = s.keyIsDown i := rfl

/-! ### setDT -/

@[simp] theorem State.setDT_mem (b : Byte) : (s.setDT b).mem = s.mem := rfl
@[simp] theorem State.setDT_V (b : Byte) : (s.setDT b).V = s.V := rfl
@[simp] theorem State.setDT_I (b : Byte) : (s.setDT b).I = s.I := rfl
@[simp] theorem State.setDT_pc (b : Byte) : (s.setDT b).pc = s.pc := rfl
@[simp] theorem State.setDT_SP (b : Byte) : (s.setDT b).SP = s.SP := rfl
@[simp] theorem State.setDT_stack (b : Byte) : (s.setDT b).stack = s.stack := rfl
@[simp] theorem State.setDT_DT (b : Byte) : (s.setDT b).DT = b := rfl
@[simp] theorem State.setDT_ST (b : Byte) : (s.setDT b).ST = s.ST := rfl
@[simp] theorem State.setDT_fb (b : Byte) : (s.setDT b).fb = s.fb := rfl
@[simp] theorem State.setDT_run (b : Byte) : (s.setDT b).run = s.run := rfl
@[simp] theorem State.setDT_keys (b : Byte) : (s.setDT b).keys = s.keys := rfl
@[simp] theorem State.setDT_diag (b : Byte) : (s.setDT b).diag = s.diag := rfl
@[simp] theorem State.setDT_randDraws (b : Byte) : (s.setDT b).randDraws = s.randDraws := rfl
@[simp] theorem State.reg_setDT (b : Byte) (i : Reg) : (s.setDT b).reg i = s.reg i := rfl
@[simp] theorem State.keyIsDown_setDT (b : Byte) (i : Key) : (s.setDT b).keyIsDown i = s.keyIsDown i := rfl

/-! ### setST -/

@[simp] theorem State.setST_mem (b : Byte) : (s.setST b).mem = s.mem := rfl
@[simp] theorem State.setST_V (b : Byte) : (s.setST b).V = s.V := rfl
@[simp] theorem State.setST_I (b : Byte) : (s.setST b).I = s.I := rfl
@[simp] theorem State.setST_pc (b : Byte) : (s.setST b).pc = s.pc := rfl
@[simp] theorem State.setST_SP (b : Byte) : (s.setST b).SP = s.SP := rfl
@[simp] theorem State.setST_stack (b : Byte) : (s.setST b).stack = s.stack := rfl
@[simp] theorem State.setST_DT (b : Byte) : (s.setST b).DT = s.DT := rfl
@[simp] theorem State.setST_ST (b : Byte) : (s.setST b).ST = b := rfl
@[simp] theorem State.setST_fb (b : Byte) : (s.setST b).fb = s.fb := rfl
@[simp] theorem State.setST_run (b : Byte) : (s.setST b).run = s.run := rfl
@[simp] theorem State.setST_keys (b : Byte) : (s.setST b).keys = s.keys := rfl
@[simp] theorem State.setST_diag (b : Byte) : (s.setST b).diag = s.diag := rfl
@[simp] theorem State.setST_randDraws (b : Byte) : (s.setST b).randDraws = s.randDraws := rfl
@[simp] theorem State.reg_setST (b : Byte) (i : Reg) : (s.setST b).reg i = s.reg i := rfl
@[simp] theorem State.keyIsDown_setST (b : Byte) (i : Key) : (s.setST b).keyIsDown i = s.keyIsDown i := rfl

/-! ### setFb -/

@[simp] theorem State.setFb_mem (f : Framebuffer) : (s.setFb f).mem = s.mem := rfl
@[simp] theorem State.setFb_V (f : Framebuffer) : (s.setFb f).V = s.V := rfl
@[simp] theorem State.setFb_I (f : Framebuffer) : (s.setFb f).I = s.I := rfl
@[simp] theorem State.setFb_pc (f : Framebuffer) : (s.setFb f).pc = s.pc := rfl
@[simp] theorem State.setFb_SP (f : Framebuffer) : (s.setFb f).SP = s.SP := rfl
@[simp] theorem State.setFb_stack (f : Framebuffer) : (s.setFb f).stack = s.stack := rfl
@[simp] theorem State.setFb_DT (f : Framebuffer) : (s.setFb f).DT = s.DT := rfl
@[simp] theorem State.setFb_ST (f : Framebuffer) : (s.setFb f).ST = s.ST := rfl
@[simp] theorem State.setFb_fb (f : Framebuffer) : (s.setFb f).fb = f := rfl
@[simp] theorem State.setFb_run (f : Framebuffer) : (s.setFb f).run = s.run := rfl
@[simp] theorem State.setFb_keys (f : Framebuffer) : (s.setFb f).keys = s.keys := rfl
@[simp] theorem State.setFb_diag (f : Framebuffer) : (s.setFb f).diag = s.diag := rfl
@[simp] theorem State.setFb_randDraws (f : Framebuffer) : (s.setFb f).randDraws = s.randDraws := rfl
@[simp] theorem State.reg_setFb (f : Framebuffer) (i : Reg) : (s.setFb f).reg i = s.reg i := rfl
@[simp] theorem State.keyIsDown_setFb (f : Framebuffer) (i : Key) : (s.setFb f).keyIsDown i = s.keyIsDown i := rfl

/-! ### setRun -/

@[simp] theorem State.setRun_mem (r : Run) : (s.setRun r).mem = s.mem := rfl
@[simp] theorem State.setRun_V (r : Run) : (s.setRun r).V = s.V := rfl
@[simp] theorem State.setRun_I (r : Run) : (s.setRun r).I = s.I := rfl
@[simp] theorem State.setRun_pc (r : Run) : (s.setRun r).pc = s.pc := rfl
@[simp] theorem State.setRun_SP (r : Run) : (s.setRun r).SP = s.SP := rfl
@[simp] theorem State.setRun_stack (r : Run) : (s.setRun r).stack = s.stack := rfl
@[simp] theorem State.setRun_DT (r : Run) : (s.setRun r).DT = s.DT := rfl
@[simp] theorem State.setRun_ST (r : Run) : (s.setRun r).ST = s.ST := rfl
@[simp] theorem State.setRun_fb (r : Run) : (s.setRun r).fb = s.fb := rfl
@[simp] theorem State.setRun_run (r : Run) : (s.setRun r).run = r := rfl
@[simp] theorem State.setRun_keys (r : Run) : (s.setRun r).keys = s.keys := rfl
@[simp] theorem State.setRun_diag (r : Run) : (s.setRun r).diag = s.diag := rfl
@[simp] theorem State.setRun_randDraws (r : Run) : (s.setRun r).randDraws = s.randDraws := rfl
@[simp] theorem State.reg_setRun (r : Run) (i : Reg) : (s.setRun r).reg i = s.reg i := rfl
@[simp] theorem State.keyIsDown_setRun (r : Run) (i : Key) : (s.setRun r).keyIsDown i = s.keyIsDown i := rfl

/-! ### setKey -/

@[simp] theorem State.setKey_mem (k : Key) (down : Bool) : (s.setKey k down).mem = s.mem := rfl
@[simp] theorem State.setKey_V (k : Key) (down : Bool) : (s.setKey k down).V = s.V := rfl
@[simp] theorem State.setKey_I (k : Key) (down : Bool) : (s.setKey k down).I = s.I := rfl
@[simp] theorem State.setKey_pc (k : Key) (down : Bool) : (s.setKey k down).pc = s.pc := rfl
@[simp] theorem State.setKey_SP (k : Key) (down : Bool) : (s.setKey k down).SP = s.SP := rfl
@[simp] theorem State.setKey_stack (k : Key) (down : Bool) : (s.setKey k down).stack = s.stack := rfl
@[simp] theorem State.setKey_DT (k : Key) (down : Bool) : (s.setKey k down).DT = s.DT := rfl
@[simp] theorem State.setKey_ST (k : Key) (down : Bool) : (s.setKey k down).ST = s.ST := rfl
@[simp] theorem State.setKey_fb (k : Key) (down : Bool) : (s.setKey k down).fb = s.fb := rfl
@[simp] theorem State.setKey_run (k : Key) (down : Bool) : (s.setKey k down).run = s.run := rfl
@[simp] theorem State.setKey_keys (k : Key) (down : Bool) : (s.setKey k down).keys = s.keys.set k down := rfl
@[simp] theorem State.setKey_diag (k : Key) (down : Bool) : (s.setKey k down).diag = s.diag := rfl
@[simp] theorem State.setKey_randDraws (k : Key) (down : Bool) : (s.setKey k down).randDraws = s.randDraws := rfl
@[simp] theorem State.reg_setKey (k : Key) (down : Bool) (i : Reg) : (s.setKey k down).reg i = s.reg i := rfl

/-! ### emit -/

@[simp] theorem State.emit_mem (A w : Word) : (s.emit A w).mem = s.mem := rfl
@[simp] theorem State.emit_V (A w : Word) : (s.emit A w).V = s.V := rfl
@[simp] theorem State.emit_I (A w : Word) : (s.emit A w).I = s.I := rfl
@[simp] theorem State.emit_pc (A w : Word) : (s.emit A w).pc = s.pc := rfl
@[simp] theorem State.emit_SP (A w : Word) : (s.emit A w).SP = s.SP := rfl
@[simp] theorem State.emit_stack (A w : Word) : (s.emit A w).stack = s.stack := rfl
@[simp] theorem State.emit_DT (A w : Word) : (s.emit A w).DT = s.DT := rfl
@[simp] theorem State.emit_ST (A w : Word) : (s.emit A w).ST = s.ST := rfl
@[simp] theorem State.emit_fb (A w : Word) : (s.emit A w).fb = s.fb := rfl
@[simp] theorem State.emit_run (A w : Word) : (s.emit A w).run = s.run := rfl
@[simp] theorem State.emit_keys (A w : Word) : (s.emit A w).keys = s.keys := rfl
@[simp] theorem State.emit_diag (A w : Word) : (s.emit A w).diag = s.diag ++ [⟨A, w⟩] := rfl
@[simp] theorem State.emit_randDraws (A w : Word) : (s.emit A w).randDraws = s.randDraws := rfl
@[simp] theorem State.reg_emit (A w : Word) (i : Reg) : (s.emit A w).reg i = s.reg i := rfl
@[simp] theorem State.keyIsDown_emit (A w : Word) (i : Key) : (s.emit A w).keyIsDown i = s.keyIsDown i := rfl

/-! ### setMem -/

@[simp] theorem State.setMem_mem (m : Memory) : (s.setMem m).mem = m := rfl
@[simp] theorem State.setMem_V (m : Memory) : (s.setMem m).V = s.V := rfl
@[simp] theorem State.setMem_I (m : Memory) : (s.setMem m).I = s.I := rfl
@[simp] theorem State.setMem_pc (m : Memory) : (s.setMem m).pc = s.pc := rfl
@[simp] theorem State.setMem_SP (m : Memory) : (s.setMem m).SP = s.SP := rfl
@[simp] theorem State.setMem_stack (m : Memory) : (s.setMem m).stack = s.stack := rfl
@[simp] theorem State.setMem_DT (m : Memory) : (s.setMem m).DT = s.DT := rfl
@[simp] theorem State.setMem_ST (m : Memory) : (s.setMem m).ST = s.ST := rfl
@[simp] theorem State.setMem_fb (m : Memory) : (s.setMem m).fb = s.fb := rfl
@[simp] theorem State.setMem_run (m : Memory) : (s.setMem m).run = s.run := rfl
@[simp] theorem State.setMem_keys (m : Memory) : (s.setMem m).keys = s.keys := rfl
@[simp] theorem State.setMem_diag (m : Memory) : (s.setMem m).diag = s.diag := rfl
@[simp] theorem State.setMem_randDraws (m : Memory) : (s.setMem m).randDraws = s.randDraws := rfl
@[simp] theorem State.reg_setMem (m : Memory) (i : Reg) : (s.setMem m).reg i = s.reg i := rfl
@[simp] theorem State.keyIsDown_setMem (m : Memory) (i : Key) : (s.setMem m).keyIsDown i = s.keyIsDown i := rfl

/-! ### countDraw -/

@[simp] theorem State.countDraw_mem : (s.countDraw).mem = s.mem := rfl
@[simp] theorem State.countDraw_V : (s.countDraw).V = s.V := rfl
@[simp] theorem State.countDraw_I : (s.countDraw).I = s.I := rfl
@[simp] theorem State.countDraw_pc : (s.countDraw).pc = s.pc := rfl
@[simp] theorem State.countDraw_SP : (s.countDraw).SP = s.SP := rfl
@[simp] theorem State.countDraw_stack : (s.countDraw).stack = s.stack := rfl
@[simp] theorem State.countDraw_DT : (s.countDraw).DT = s.DT := rfl
@[simp] theorem State.countDraw_ST : (s.countDraw).ST = s.ST := rfl
@[simp] theorem State.countDraw_fb : (s.countDraw).fb = s.fb := rfl
@[simp] theorem State.countDraw_run : (s.countDraw).run = s.run := rfl
@[simp] theorem State.countDraw_keys : (s.countDraw).keys = s.keys := rfl
@[simp] theorem State.countDraw_diag : (s.countDraw).diag = s.diag := rfl
@[simp] theorem State.countDraw_randDraws : (s.countDraw).randDraws = s.randDraws + 1 := rfl
@[simp] theorem State.reg_countDraw (i : Reg) : (s.countDraw).reg i = s.reg i := rfl
@[simp] theorem State.keyIsDown_countDraw (i : Key) : (s.countDraw).keyIsDown i = s.keyIsDown i := rfl

/-! ### Reads after a write of the same file -/

/-- R11: a register reads what was last written to it, and no write reaches another register. -/
@[simp] theorem State.reg_setReg (x : Reg) (b : Byte) (i : Reg) :
    (s.setReg x b).reg i = if i = x then b else s.reg i := by
  simp only [State.reg, State.setReg, Fin.getElem_fin, Vector.getElem_set, Fin.ext_iff, eq_comm]

/-- R207: a key's level is what was last set. -/
@[simp] theorem State.keyIsDown_setKey (k : Key) (down : Bool) (i : Key) :
    (s.setKey k down).keyIsDown i = if i = k then down else s.keyIsDown i := by
  simp only [State.keyIsDown, State.setKey, Fin.getElem_fin, Vector.getElem_set, Fin.ext_iff, eq_comm]

/-- A stack entry is what was last pushed there. -/
theorem State.setStack_getElem (j : Fin 16) (w : Word) (i : Fin 16) :
    (s.setStack j w).stack[i] = if i = j then w else s.stack[i] := by
  simp only [State.setStack, Fin.getElem_fin, Vector.getElem_set, Fin.ext_iff, eq_comm]

/-! ### Updates built from these -/

@[simp] theorem State.advance_eq : s.advance = s.setPc (s.pc + 2) := rfl

@[simp] theorem State.setFlagThenReg_eq (f : Byte) (x : Reg) (b : Byte) :
    s.setFlagThenReg f x b = (s.setReg VF f).setReg x b := rfl

/-- R108: a skip writes pc only. -/
theorem State.skipIf_eq (c : Bool) : s.skipIf c = s.setPc (if c then s.pc + 2 else s.pc) := by
  cases c <;> rfl

@[simp] theorem takeFault_eq (r : FaultRecord) : takeFault r s = s.setRun (.halted r) := rfl

/-- R24, R83: undoing the generic advance gives the fetch address back. -/
@[simp] theorem State.fetchAddr_advance : s.advance.fetchAddr = s.pc := by
  simp [State.fetchAddr]

/-- R202: a handler's fault leaves the state before the action, but for run. -/
theorem raise_advance (r : FaultRecord) : raise r s.advance = .next (takeFault r s) := by
  simp only [raise, State.fetchAddr_advance]; rfl

theorem raise_eq (r : FaultRecord) : raise r s = .next (haltedAt r s) := rfl

end Sys2Proof.Machine
end

