-- ==== Sys2Proof/Laws/Memory.lean ====
section
/-! SUPPORT. Memory: reads after writes, and that every memory operation keeps the canonical form (20_memory.md R46,
R50, R51, R55). -/

namespace Sys2Proof.Machine

variable {m : Memory} {k a : Nat} {v : Byte}

@[simp] theorem Memory.read_nil (a : Nat) : Memory.read [] a = Memory.unlisted := rfl

@[simp] theorem Memory.read_cons (c : Host.Cell) (m : Memory) (a : Nat) :
    Memory.read (c :: m) a = if c.1 = a then c.2 else Memory.read m a := rfl

/-- An address below every listed one reads as unlisted. -/
theorem Memory.read_of_lt (h : ∀ c ∈ m, a < c.1) : Memory.read m a = Memory.unlisted := by
  induction m with
  | nil => rfl
  | cons c m ih =>
    have hc := h c (by simp)
    rw [read_cons, if_neg (by omega), ih fun d hd => h d (by simp [hd])]

/-- A write reaches no other address. -/
theorem Memory.read_write_ne (h : a ≠ k) : (Memory.write m k v).read a = m.read a := by
  induction m with
  | nil => unfold write; split <;> simp [Ne.symm h]
  | cons c m ih =>
    unfold write
    split_ifs with h1 h2 h3 h4
    · rfl
    · rw [read_cons, if_neg (Ne.symm h)]
    · rw [read_cons, if_neg (by omega)]
    · rw [read_cons, read_cons, if_neg (Ne.symm h), if_neg (by omega)]
    · rw [read_cons, read_cons, ih]

/-- A write is read back (R57), in a memory of canonical form. -/
theorem Memory.read_write_self (h : m.Pairwise (fun a b => a.1 < b.1)) : (Memory.write m k v).read k = v := by
  induction m with
  | nil => unfold write; split <;> simp_all
  | cons c m ih =>
    have hp := List.pairwise_cons.mp h
    unfold write
    split_ifs with h1 h2 h3 h4
    · rw [read_of_lt]
      · exact h2.symm
      · intro d hd
        rcases List.mem_cons.mp hd with rfl | hd
        · exact h1
        · exact lt_trans h1 (hp.1 d hd)
    · simp
    · rw [read_of_lt]
      · exact h4.symm
      · intro d hd; exact h3 ▸ hp.1 d hd
    · simp
    · simp only [read_cons, if_neg (Ne.symm h3)]; exact ih hp.2

/-- What a write can list: the written cell, or a cell that was listed. -/
theorem Memory.mem_write {c : Host.Cell} (h : c ∈ Memory.write m k v) :
    (c = (k, v) ∧ v ≠ Memory.unlisted) ∨ c ∈ m := by
  induction m with
  | nil => unfold write at h; split at h <;> simp_all
  | cons d m ih =>
    unfold write at h
    split_ifs at h <;> simp_all <;> tauto

/-- A write keeps the addresses strictly rising. -/
theorem Memory.write_pairwise (h : m.Pairwise (fun a b => a.1 < b.1)) :
    (Memory.write m k v).Pairwise (fun a b => a.1 < b.1) := by
  induction m with
  | nil => unfold write; split <;> simp
  | cons d m ih =>
    have hp := List.pairwise_cons.mp h
    unfold write
    split_ifs with h1 h2 h3 h4
    · exact h
    · refine List.pairwise_cons.mpr ⟨fun c hc => ?_, h⟩
      rcases List.mem_cons.mp hc with rfl | hc
      · exact h1
      · exact lt_trans h1 (hp.1 c hc)
    · exact hp.2
    · exact List.pairwise_cons.mpr ⟨fun c hc => h3 ▸ hp.1 c hc, hp.2⟩
    · refine List.pairwise_cons.mpr ⟨fun c hc => ?_, ih hp.2⟩
      rcases mem_write hc with ⟨rfl, _⟩ | hc
      · show d.1 < k; omega
      · exact hp.1 c hc

/-- A write inside memory keeps the canonical form. -/
theorem Memory.write_wf (h : m.wf) (hk : k < Config.memSize) : (Memory.write m k v).wf := by
  refine ⟨write_pairwise h.1, fun c hc => ?_⟩
  rcases mem_write hc with ⟨rfl, hv⟩ | hc
  · exact ⟨hk, hv⟩
  · exact h.2 c hc

/-- A block write inside memory keeps the canonical form. -/
theorem Memory.writeBytes_wf {bs : List Byte} {base : Nat} (h : m.wf) (hb : base + bs.length ≤ Config.memSize) :
    (Memory.writeBytes m base bs).wf := by
  induction bs generalizing m base with
  | nil => exact h
  | cons b bs ih =>
    simp only [List.length_cons] at hb
    exact ih (write_wf h (by omega)) (by omega)

/-- A block write keeps the addresses strictly rising. -/
theorem Memory.writeBytes_pairwise {bs : List Byte} {base : Nat} (h : m.Pairwise (fun a b => a.1 < b.1)) :
    (Memory.writeBytes m base bs).Pairwise (fun a b => a.1 < b.1) := by
  induction bs generalizing m base with
  | nil => exact h
  | cons b bs ih => exact ih (write_pairwise h)

/-- A block write reaches no address outside the block. -/
theorem Memory.read_writeBytes_outside {bs : List Byte} {base : Nat} (h : a < base ∨ base + bs.length ≤ a) :
    (Memory.writeBytes m base bs).read a = m.read a := by
  induction bs generalizing m base with
  | nil => rfl
  | cons b bs ih =>
    simp only [List.length_cons] at h
    rw [writeBytes, ih (by omega), read_write_ne (by omega)]

/-- A block write is read back byte by byte (R55, R57), in a memory of canonical form. -/
theorem Memory.read_writeBytes_inside {bs : List Byte} {base i : Nat} (h : m.Pairwise (fun a b => a.1 < b.1))
    (hi : i < bs.length) : (Memory.writeBytes m base bs).read (base + i) = bs[i] := by
  induction bs generalizing m base i with
  | nil => simp at hi
  | cons b bs ih =>
    rw [writeBytes]
    cases i with
    | zero => rw [read_writeBytes_outside (by omega)]; simpa using read_write_self h
    | succ i =>
      have := ih (m := m.write base b) (base := base + 1) (i := i) (write_pairwise h) (by simpa using hi)
      rw [show base + (i + 1) = base + 1 + i by omega]
      simpa using this

@[simp] theorem Memory.readBytes_length (base n : Nat) : (m.readBytes base n).length = n := by simp [readBytes]

/-- A block read is the bytes, ascending (R55). -/
@[simp] theorem Memory.readBytes_getElem {base n i : Nat} (h : i < (m.readBytes base n).length) :
    (m.readBytes base n)[i] = m.read (base + i) := by simp [readBytes]

/-- Reset's memory is canonical (R46). -/
theorem reset_mem_wf : State.reset.mem.wf := by decide

/-- Reset's memory reads 0x00 everywhere (R46). -/
theorem reset_read (a : Nat) : State.reset.mem.read a = 0x00 := rfl

end Sys2Proof.Machine
end

