-- ==== Sys2Proof/Laws/Ops.lean ====
section
/-! SUPPORT. Once for each shared operation: everything it can do. -/

namespace Sys2Proof.Machine

/-- R52: no address of the range is ≥ 0x1000. -/
theorem rangeFault_none_iff {A : Word} {base n : Nat} :
    rangeFault A base n = none ↔ n = 0 ∨ base + n ≤ Config.memSize := by
  unfold rangeFault; split <;> simp_all

/-- R52: the fault, with the lowest such address. -/
theorem rangeFault_some_iff {A : Word} {base n : Nat} {r : FaultRecord} :
    rangeFault A base n = some r ↔
      (n ≠ 0 ∧ Config.memSize < base + n) ∧ r = .outOfRangeMemory A (max base Config.memSize) := by
  unfold rangeFault
  split
  · next h => simp only [reduceCtorEq, false_iff, not_and]; omega
  · next h => simp only [Option.some.injEq, eq_comm (a := r), iff_and_self]; omega

/-- What a meaning with a memory range can do (R52, R202): its own effect, or the precise fault. -/
theorem withRange_cases {base n : Nat} {s after t : State} (h : withRange base n s after = .next t) :
    (t = after ∧ (n = 0 ∨ base + n ≤ Config.memSize)) ∨
      (t = haltedAt (.outOfRangeMemory s.fetchAddr (max base Config.memSize)) s ∧ n ≠ 0 ∧
        Config.memSize < base + n) := by
  unfold withRange at h
  cases hr : rangeFault s.fetchAddr base n with
  | none =>
    rw [hr] at h
    exact .inl ⟨(Host.Outcome.next.inj h).symm, rangeFault_none_iff.mp hr⟩
  | some r =>
    rw [hr] at h
    obtain ⟨⟨hn, hb⟩, rfl⟩ := rangeFault_some_iff.mp hr
    exact .inr ⟨(Host.Outcome.next.inj h).symm, hn, hb⟩

/-- A meaning whose range lies in memory has its own effect. -/
theorem withRange_inside {base n : Nat} {s after : State} (h : n = 0 ∨ base + n ≤ Config.memSize) :
    withRange base n s after = .next after := by
  simp [withRange, rangeFault_none_iff.mpr h]

/-- A meaning whose range does not faults, with the lowest address outside (R52). -/
theorem withRange_outside {base n : Nat} {s after : State} (hn : n ≠ 0) (h : Config.memSize < base + n) :
    withRange base n s after = .next (haltedAt (.outOfRangeMemory s.fetchAddr (max base Config.memSize)) s) := by
  simp only [withRange, rangeFault_some_iff.mpr ⟨⟨hn, h⟩, rfl⟩]; rfl

/-- A meaning with a memory range always answers a next state. -/
theorem withRange_next (base n : Nat) (s after : State) : ∃ t, withRange base n s after = .next t := by
  unfold withRange; split <;> exact ⟨_, rfl⟩

/-- R53, R82: a fetch inside memory is the two bytes, big-endian. -/
theorem fetch_inside {s : State} (h : s.pc.toNat ≤ 0xFFE) :
    s.fetch = .ok (joinBytes (s.mem.read s.pc.toNat) (s.mem.read (s.pc.toNat + 1))) := by
  have : rangeFault s.pc s.pc.toNat 2 = none := rangeFault_none_iff.mpr (.inr (by simp [Config.memSize]; omega))
  simp [State.fetch, this]

/-- R82: a fetch that reaches 0x1000 is a fault. -/
theorem fetch_outside {s : State} (h : 0xFFF ≤ s.pc.toNat) :
    s.fetch = .error (.outOfRangeMemory s.pc (max s.pc.toNat 0x1000)) := by
  have : rangeFault s.pc s.pc.toNat 2 = some (.outOfRangeMemory s.pc (max s.pc.toNat 0x1000)) :=
    rangeFault_some_iff.mpr ⟨⟨by decide, by simp [Config.memSize]; omega⟩, rfl⟩
  simp [State.fetch, this]

/-- R155: loading a block writes only registers, the numbered ones from j on. -/
theorem setRegBlock_spec (bs : List Byte) (j : Nat) (s : State) :
    (s.setRegBlock j bs) = { s with V := (s.setRegBlock j bs).V } ∧
      ∀ r : Reg, (s.setRegBlock j bs).reg r = if h : j ≤ r.val ∧ r.val - j < bs.length then bs[r.val - j] else s.reg r := by
  induction bs generalizing j s with
  | nil => exact ⟨rfl, fun r => by simp [State.setRegBlock]⟩
  | cons b bs ih =>
    simp only [State.setRegBlock]
    split
    · next hj =>
      obtain ⟨h1, h2⟩ := ih (j + 1) (s.setReg ⟨j, hj⟩ b)
      refine ⟨h1.trans (by simp [State.setReg]), fun r => ?_⟩
      rw [h2 r, State.reg_setReg]
      by_cases hr : r.val = j
      · subst hr; simp
      · by_cases hlt : j + 1 ≤ r.val ∧ r.val - (j + 1) < bs.length
        · rw [dif_pos hlt, dif_pos ⟨by omega, by simp; omega⟩]
          rw [List.getElem_cons, dif_neg (by omega)]; rfl
        · rw [dif_neg hlt, dif_neg (by simp; omega), if_neg (by simp [Fin.ext_iff, hr])]
    · next hj =>
      obtain ⟨h1, h2⟩ := ih (j + 1) s
      refine ⟨h1, fun r => ?_⟩
      have := r.isLt
      rw [h2 r, dif_neg (by omega), dif_neg (by omega)]

/-- R154: the block a store takes is V0..Vx. -/
@[simp] theorem regBlock_length (s : State) (x : Reg) : (s.regBlock x).length = x.val + 1 := by
  simp [State.regBlock, blockLength]

theorem regBlock_getElem (s : State) (x : Reg) {i : Nat} (h : i < (s.regBlock x).length) (h' : i < 16) :
    (s.regBlock x)[i] = s.reg ⟨i, h'⟩ := by
  simp [State.regBlock, State.reg]

/-- R180: the key operand of a register that holds 0..15. -/
theorem keyOperand_some {s : State} {x : Reg} (h : (s.reg x).toNat < 16) :
    s.keyOperand x = some ⟨(s.reg x).toNat, h⟩ := by simp [State.keyOperand, h]

/-- R180: a register above 15 holds no key. -/
theorem keyOperand_none {s : State} {x : Reg} (h : 15 < (s.reg x).toNat) : s.keyOperand x = none := by
  simp [State.keyOperand]; omega

end Sys2Proof.Machine
end

