-- ==== Sys2Proof/Laws/Display.lean ====
section
/-! SUPPORT. The framebuffer primitives and what one row of the blit does (43_display.md R165, R166). -/

namespace Sys2Proof.Machine

/-- R165: a pixel is what was last written there, and no write reaches another pixel. -/
@[simp] theorem Framebuffer.pix_setPix (fb : Framebuffer) (x : Fin 64) (y : Fin 32) (b : Bool) (px : Fin 64)
    (py : Fin 32) : (fb.setPix x y b).pix px py = if px = x ∧ py = y then b else fb.pix px py := by
  simp only [pix, setPix, Fin.getElem_fin, Vector.getElem_set]
  by_cases hy : (y : Nat) = py
  · simp only [hy, if_true, Vector.getElem_set, Fin.ext_iff, eq_comm, and_true]
  · simp only [if_neg hy, Fin.ext_iff, Ne.symm hy, and_false, if_false]

/-- R167: every pixel of a cleared framebuffer is off. -/
@[simp] theorem Framebuffer.pix_clear (px : Fin 64) (py : Fin 32) : Framebuffer.clear.pix px py = false := by
  simp [Framebuffer.clear, Framebuffer.pix]

/-- Two framebuffers with the same pixels are equal. -/
theorem Framebuffer.ext_pix {f g : Framebuffer} (h : ∀ px py, f.pix px py = g.pix px py) : f = g := by
  apply Vector.ext
  intro y hy
  apply Vector.ext
  intro x hx
  exact h ⟨x, hx⟩ ⟨y, hy⟩

/-- R166: one bit of the blit, pixel by pixel. -/
theorem blitBit_pix (x : Nat) (py : Fin 32) (row : Byte) (acc : Bool × Framebuffer) (b : Nat) (qx : Fin 64)
    (qy : Fin 32) : (blitBit x py row acc b).2.pix qx qy =
      (acc.2.pix qx qy ^^ (decide (qx = column (x + b) ∧ qy = py) && spriteBit row b)) := by
  simp only [blitBit, Framebuffer.pix_setPix]
  by_cases h : qx = column (x + b) ∧ qy = py
  · simp [h]
  · simp [h]

/-- R166: one bit of the blit collides when it is a 1 bit on a pixel that is on. -/
theorem blitBit_collision (x : Nat) (py : Fin 32) (row : Byte) (acc : Bool × Framebuffer) (b : Nat) :
    (blitBit x py row acc b).1 = (acc.1 || (acc.2.pix (column (x + b)) py && spriteBit row b)) := rfl

/-- R170: within one row no two bits land on one column. -/
theorem column_inj {x b c : Nat} (hb : b < 8) (hc : c < 8) (h : column (x + b) = column (x + c)) : b = c := by
  simp only [column, Fin.mk.injEq] at h; omega

/-- R170: within one sprite no two rows land on one framebuffer row. -/
theorem rowOf_inj {y b c : Nat} (hb : b < 32) (hc : c < 32) (h : rowOf (y + b) = rowOf (y + c)) : b = c := by
  simp only [rowOf, Fin.mk.injEq] at h; omega

/-- Bit b' < n of the row lands on (qx, qy) as a 1 bit. -/
def RowHits (x : Nat) (py : Fin 32) (row : Byte) (n : Nat) (qx : Fin 64) (qy : Fin 32) : Prop :=
  ∃ b < n, qx = column (x + b) ∧ qy = py ∧ spriteBit row b = true

/-- The first n bits of a row, all they do: exactly the pixels they hit are inverted, and they collide exactly when one
of those was on (R166). -/
theorem blitRow_spec (x : Nat) (py : Fin 32) (row : Byte) (acc : Bool × Framebuffer) (n : Nat) (hn : n ≤ 8) :
    (∀ qx qy, ((List.range n).foldl (blitBit x py row) acc).2.pix qx qy = true ↔
        (acc.2.pix qx qy = true ↔ ¬RowHits x py row n qx qy)) ∧
      (((List.range n).foldl (blitBit x py row) acc).1 = true ↔
        acc.1 = true ∨ ∃ qx qy, acc.2.pix qx qy = true ∧ RowHits x py row n qx qy) := by
  induction n with
  | zero => simp [RowHits]
  | succ n ih =>
    obtain ⟨h1, h2⟩ := ih (by omega)
    rw [List.range_succ, List.foldl_append]
    simp only [List.foldl_cons, List.foldl_nil]
    generalize (List.range n).foldl (blitBit x py row) acc = A at *
    have hits : ∀ qx qy, RowHits x py row (n + 1) qx qy ↔
        RowHits x py row n qx qy ∨ ((qx = column (x + n) ∧ qy = py) ∧ spriteBit row n = true) := by
      intro qx qy
      constructor
      · rintro ⟨b, hb, hx, hy, hs⟩
        rcases Nat.lt_succ_iff_lt_or_eq.mp hb with hb | rfl
        · exact .inl ⟨b, hb, hx, hy, hs⟩
        · exact .inr ⟨⟨hx, hy⟩, hs⟩
      · rintro (⟨b, hb, h⟩ | ⟨⟨hx, hy⟩, hs⟩)
        · exact ⟨b, by omega, h⟩
        · exact ⟨n, by omega, hx, hy, hs⟩
    have new : ¬RowHits x py row n (column (x + n)) py := by
      rintro ⟨b, hb, hx, _⟩
      have := column_inj (by omega) (by omega) hx
      omega
    have old : A.2.pix (column (x + n)) py = acc.2.pix (column (x + n)) py := by
      have := h1 (column (x + n)) py
      exact Bool.eq_iff_iff.mpr (by tauto)
    constructor
    · intro qx qy
      rw [blitBit_pix, hits]
      by_cases hq : qx = column (x + n) ∧ qy = py
      · obtain ⟨rfl, rfl⟩ := hq
        rw [old]
        cases acc.2.pix (column (x + n)) qy <;> cases spriteBit row n <;> simp [new]
      · simp [hq, h1]
    · rw [blitBit_collision, old]
      simp only [Bool.or_eq_true, Bool.and_eq_true, h2, hits]
      constructor
      · rintro ((h | ⟨qx, qy, h, h'⟩) | ⟨h, hs⟩)
        · exact .inl h
        · exact .inr ⟨qx, qy, h, .inl h'⟩
        · exact .inr ⟨_, _, h, .inr ⟨⟨rfl, rfl⟩, hs⟩⟩
      · rintro (h | ⟨qx, qy, h, h' | ⟨⟨rfl, rfl⟩, hs⟩⟩)
        · exact .inl (.inl h)
        · exact .inl (.inr ⟨qx, qy, h, h'⟩)
        · exact .inr ⟨h, hs⟩

/-- No rows draw nothing (R169, n = 0). -/
@[simp] theorem drawSprite_nil (x y : Nat) (fb : Framebuffer) : drawSprite x y [] fb = (false, fb) := rfl

end Sys2Proof.Machine
end

