-- ==== Sys2Proof/Laws/Flags.lean ====
section
/-! SUPPORT. The ALU results and the flag values as numbers (10_state.md R35, 41_alu.md R132), and the decimal digits
(42_index_memory.md R153). -/

namespace Sys2Proof.Machine

/-- R132: the sum, mod 256. -/
@[simp] theorem addMod_toNat (a b : Byte) : (addMod a b).toNat = (a.toNat + b.toNat) % 256 := by simp [addMod]

/-- R132: the difference, mod 256, as a non-negative remainder (R10). -/
@[simp] theorem subMod_toNat (a b : Byte) :
    ((subMod a b).toNat : Int) = ((a.toNat : Int) - (b.toNat : Int)) % 256 := by
  unfold subMod; rw [BitVec.toNat_ofInt]; omega

@[simp] theorem flagOf_toNat (c : Bool) : (flagOf c).toNat = if c then 1 else 0 := by cases c <;> rfl

@[simp] theorem flagOf_eq_one (c : Bool) : flagOf c = 1#8 ↔ c = true := by cases c <;> decide

/-- A flag is 0 or 1. -/
theorem flagOf_eq (c : Bool) : flagOf c = 0 ∨ flagOf c = 1 := by cases c <;> decide

/-- 8xy4: the carry. -/
theorem carryFlag_eq_one {a b : Byte} : carryFlag a b = 1 ↔ 255 < a.toNat + b.toNat := by simp [carryFlag]

/-- 8xy5 and 8xy7: the strict NOT borrow. -/
theorem notBorrowFlag_eq_one {a b : Byte} : notBorrowFlag a b = 1 ↔ b.toNat < a.toNat := by simp [notBorrowFlag]

/-- 8xy6: the low bit. -/
theorem shiftedOutLow_toNat (a : Byte) : (shiftedOutLow a).toNat = a.toNat % 2 := by simp [shiftedOutLow]

/-- 8xyE: the high bit. -/
theorem shiftedOutHigh_toNat (a : Byte) : (shiftedOutHigh a).toNat = a.toNat / 128 := by
  have := a.isLt
  simp [shiftedOutHigh, Nat.shiftRight_eq_div_pow]
  omega

@[simp] theorem bcdDigits_length (a : Byte) : (bcdDigits a).length = 3 := rfl

/-- R153: the hundreds, the tens and the ones. -/
theorem bcdDigits_toNat (a : Byte) :
    (bcdDigits a).map BitVec.toNat = [a.toNat / 100, a.toNat / 10 % 10, a.toNat % 10] := by
  have := a.isLt
  simp only [bcdDigits, List.map_cons, List.map_nil, BitVec.toNat_ofNat, List.cons.injEq, and_true]
  omega

end Sys2Proof.Machine
end

