-- ==== Sys2Proof/Laws/Step.lean ====
section
/-! SUPPORT. What a step can do, once: the inversion lemma of the step, from which invariants are derived. -/

namespace Sys2Proof.Machine

/-- What an execution of a word can be: an instruction's meaning, or the report of an UNKNOWN word (R82, R87). -/
theorem execWord_cases {w : Word} {s t : State} (h : execWord w s = .next t) :
    (∃ i, decodeWord w = .known i ∧ exec i s = .next t) ∨
      (∃ u, decodeWord w = .unknown u ∧ t = s.emit s.fetchAddr u) := by
  unfold execWord at h
  cases hd : decodeWord w with
  | known i => rw [hd] at h; exact .inl ⟨i, rfl, h⟩
  | unknown u => rw [hd] at h; exact .inr ⟨u, rfl, (Host.Outcome.next.inj h).symm⟩

/-- Everything a step that answers a next state can have done (R82, R86, R87). -/
theorem step_cases {s t : State} (h : step s = .next t) :
    (s.run ≠ .running ∧ t = s) ∨
      (s.run = .running ∧
        ((∃ r, s.fetch = .error r ∧ t = takeFault r s) ∨ (∃ w, s.fetch = .ok w ∧ execWord w s.advance = .next t))) := by
  unfold step stepAction at h
  cases hr : s.run with
  | running =>
    rw [hr] at h
    unfold cycle at h
    cases hf : s.fetch with
    | error r => rw [hf] at h; exact .inr ⟨rfl, .inl ⟨r, rfl, (Host.Outcome.next.inj h).symm⟩⟩
    | ok w => rw [hf] at h; exact .inr ⟨rfl, .inr ⟨w, rfl, h⟩⟩
  | waitKey x => rw [hr] at h; exact .inl ⟨by simp, (Host.Outcome.next.inj h).symm⟩
  | halted r => rw [hr] at h; exact .inl ⟨by simp, (Host.Outcome.next.inj h).symm⟩

/-- 00EE, everything it can do (R100). -/
theorem execRet_cases {s t : State} (h : execRet s = .next t) :
    (s.SP = 0 ∧ t = haltedAt (.stackUnderflow s.fetchAddr s.SP) s) ∨
      (s.SP ≠ 0 ∧ ∃ hs : s.SP.toNat < 16, t = (s.setPc s.stack[s.SP.toNat]).setSP (s.SP - 1)) := by
  unfold execRet at h
  split_ifs at h with h0 h1
  · exact .inl ⟨h0, (Host.Outcome.next.inj h).symm⟩
  · exact .inr ⟨h0, h1, (Host.Outcome.next.inj h).symm⟩

/-- 2nnn, everything it can do (R102). -/
theorem execCall_cases {nnn : BitVec 12} {s t : State} (h : execCall nnn s = .next t) :
    (s.SP.toNat = 15 ∧ t = haltedAt (.stackOverflow s.fetchAddr s.SP) s) ∨
      (∃ hs : s.SP.toNat + 1 < 16,
        t = ((s.setSP (s.SP + 1)).setStack ⟨s.SP.toNat + 1, hs⟩ s.pc).setPc (addrOperand nnn)) := by
  unfold execCall at h
  split_ifs at h with h0 h1
  · exact .inl ⟨h0, (Host.Outcome.next.inj h).symm⟩
  · exact .inr ⟨h1, (Host.Outcome.next.inj h).symm⟩

/-- Ex9E and ExA1, everything a key skip can do (R180, R181); c is the level that skips. -/
theorem execSkp_cases {x : Reg} {s t : State} (h : execSkp x s = .next t) :
    (15 < (s.reg x).toNat ∧ t = haltedAt (.outOfRangeKey s.fetchAddr (s.reg x)) s) ∨
      (∃ hk : (s.reg x).toNat < 16, t = s.skipIf (s.keyIsDown ⟨(s.reg x).toNat, hk⟩)) := by
  unfold execSkp at h
  by_cases hk : (s.reg x).toNat < 16
  · rw [keyOperand_some hk] at h; exact .inr ⟨hk, (Host.Outcome.next.inj h).symm⟩
  · rw [keyOperand_none (by omega)] at h; exact .inl ⟨by omega, (Host.Outcome.next.inj h).symm⟩

theorem execSknp_cases {x : Reg} {s t : State} (h : execSknp x s = .next t) :
    (15 < (s.reg x).toNat ∧ t = haltedAt (.outOfRangeKey s.fetchAddr (s.reg x)) s) ∨
      (∃ hk : (s.reg x).toNat < 16, t = s.skipIf (!s.keyIsDown ⟨(s.reg x).toNat, hk⟩)) := by
  unfold execSknp at h
  by_cases hk : (s.reg x).toNat < 16
  · rw [keyOperand_some hk] at h; exact .inr ⟨hk, (Host.Outcome.next.inj h).symm⟩
  · rw [keyOperand_none (by omega)] at h; exact .inl ⟨by omega, (Host.Outcome.next.inj h).symm⟩

end Sys2Proof.Machine
end

