-- ==== Sys2Proof/Laws/Host.lean ====
section
/-! SUPPORT. The host's actions, once each: what they do in each sub-state (60_exceptions.md R202, R207 to R210), and
the placing of a word to fetch. -/

namespace Sys2Proof.Machine

variable {s : State}

/-- R208: one down, stopping at 0. -/
@[simp] theorem countDown_toNat (t : Byte) : (countDown t).toNat = t.toNat - 1 := by
  unfold countDown; split
  · bv_omega
  · omega

/-- R202: a halted core ignores Tick, KeyDown and KeyUp. -/
theorem actions_halted {r : FaultRecord} (h : s.run = .halted r) (k : Key) :
    tick s = s ∧ keyDown k s = s ∧ keyUp k s = s := by
  simp [tick, keyDown, keyUp, State.unlessHalted, h]

/-- R208: a Tick outside Halted. -/
theorem tick_eq (h : ∀ r, s.run ≠ .halted r) : tick s = (s.setDT (countDown s.DT)).setST (countDown s.ST) := by
  unfold tick State.unlessHalted; split
  · exact absurd ‹_› (h _)
  · rfl
  · rfl

/-- R210: a KeyUp outside Halted. -/
theorem keyUp_eq (h : ∀ r, s.run ≠ .halted r) (k : Key) : keyUp k s = s.setKey k false := by
  unfold keyUp State.unlessHalted; split
  · exact absurd ‹_› (h _)
  · rfl
  · rfl

/-- R209: a KeyDown in Running. -/
theorem keyDown_running (h : s.run = .running) (k : Key) : keyDown k s = s.setKey k true := by simp [keyDown, h]

/-- R209: a KeyDown in WaitKey(x). -/
theorem keyDown_waitKey {x : Reg} (h : s.run = .waitKey x) (k : Key) :
    keyDown k s = ((s.setKey k true).setReg x (BitVec.ofNat 8 k.val)).setRun .running := by simp [keyDown, h]

/-- R62: what LoadProgram can do. -/
theorem loadProgram_cases (b : List Byte) (s : State) :
    (3584 < b.length ∧ loadProgram b s = (.romTooLarge b.length, s)) ∨
      (b.length ≤ 3584 ∧ loadProgram b s = (.ok, s.setMem (s.mem.writeBytes 0x200 b))) := by
  by_cases h : 3584 < b.length
  · exact .inl ⟨h, by simp [loadProgram, Config.maxProgramLength, h]⟩
  · exact .inr ⟨by omega, by simp [loadProgram, Config.maxProgramLength, Config.programBase, h]⟩

/-- The slot a word is placed in is inside memory (log 6). -/
theorem fetchSlot_le (s : State) : (fetchSlot s).toNat ≤ 0xFFE := by
  unfold fetchSlot
  split
  · next h => simp only [Config.memSize] at h; omega
  · decide

/-- The word that is placed is the one fetched (log 6). -/
theorem fetch_placeFetchWord (w : Word) (h : s.mem.wf) : (placeFetchWord w s).fetch = .ok w := by
  have hs := fetchSlot_le s
  rw [fetch_inside (by exact hs)]
  have h0 := Memory.read_writeBytes_inside (base := (fetchSlot s).toNat) (bs := [hiByte w, loByte w]) (i := 0) h.1 (by simp)
  have h1 := Memory.read_writeBytes_inside (base := (fetchSlot s).toNat) (bs := [hiByte w, loByte w]) (i := 1) h.1 (by simp)
  show Except.ok (joinBytes (Memory.read _ ((fetchSlot s).toNat + 0)) (Memory.read _ ((fetchSlot s).toNat + 1))) = _
  simp only [placeFetchWord]
  rw [h0, h1]
  simp [joinBytes_hi_lo]

end Sys2Proof.Machine
end

