-- ==== Sys2Proof/Laws/PerInstr.lean ====
section
/-! SUPPORT. Per instruction: the word an instruction encodes to satisfies its own row of the opcode table,
`(w & mask) = match` (30_encoding.md R74). One lemma per constructor. -/

namespace Sys2Proof.Laws

/-- The instruction's word spells the instruction's row (R74). -/
def EncodesRow.Statement (i : Instr) : Prop := encode i &&& i.row.mask = i.row.val

/-! ## The masks of the formats (R71): the fixed bits stay, the operand bits go -/

theorem and_full {w : Nat} (a : BitVec w) : a &&& BitVec.allOnes w = a := BitVec.and_allOnes

theorem formatA_mask (op : BitVec 4) (a : BitVec 12) : formatA op a &&& 0xF000 = op ++ 0#12 := by
  show (op ++ a) &&& (BitVec.allOnes 4 ++ 0#12) = _
  rw [BitVec.and_append, and_full, BitVec.and_zero]

theorem formatXK_mask (op : BitVec 4) (x : Reg) (kk : Byte) : formatXK op x kk &&& 0xF000 = op ++ 0#4 ++ 0#8 := by
  show (op ++ (BitVec.ofFin x : BitVec 4) ++ kk) &&& (BitVec.allOnes 4 ++ 0#4 ++ 0#8) = op ++ 0#4 ++ 0#8
  rw [BitVec.and_append, BitVec.and_append, and_full, BitVec.and_zero, BitVec.and_zero]

theorem formatX_mask (op : BitVec 4) (x : Reg) (kk : Byte) : formatXK op x kk &&& 0xF0FF = op ++ 0#4 ++ kk := by
  show (op ++ (BitVec.ofFin x : BitVec 4) ++ kk) &&& (BitVec.allOnes 4 ++ 0#4 ++ BitVec.allOnes 8) = _
  rw [BitVec.and_append, BitVec.and_append, and_full, BitVec.and_zero, and_full]

theorem formatXYN_mask (op : BitVec 4) (x y : Reg) (n : BitVec 4) :
    formatXYN op x y n &&& 0xF000 = op ++ 0#4 ++ 0#4 ++ 0#4 := by
  show (op ++ (BitVec.ofFin x : BitVec 4) ++ (BitVec.ofFin y : BitVec 4) ++ n) &&&
    (BitVec.allOnes 4 ++ 0#4 ++ 0#4 ++ 0#4) = op ++ 0#4 ++ 0#4 ++ 0#4
  rw [BitVec.and_append, BitVec.and_append, BitVec.and_append, and_full, BitVec.and_zero, BitVec.and_zero,
    BitVec.and_zero]

theorem formatXY_mask (op : BitVec 4) (x y : Reg) (n : BitVec 4) :
    formatXYN op x y n &&& 0xF00F = op ++ 0#4 ++ 0#4 ++ n := by
  show (op ++ (BitVec.ofFin x : BitVec 4) ++ (BitVec.ofFin y : BitVec 4) ++ n) &&&
    (BitVec.allOnes 4 ++ 0#4 ++ 0#4 ++ BitVec.allOnes 4) = op ++ 0#4 ++ 0#4 ++ n
  rw [BitVec.and_append, BitVec.and_append, BitVec.and_append, and_full, BitVec.and_zero, BitVec.and_zero, and_full]

namespace EncodesRow

theorem cls : Statement (.cls) := rfl
theorem ret : Statement (.ret) := rfl
theorem jp (nnn : BitVec 12) : Statement (.jp nnn) := (formatA_mask _ _)
theorem call (nnn : BitVec 12) : Statement (.call nnn) := (formatA_mask _ _)
theorem seImm (x : Reg) (kk : Byte) : Statement (.seImm x kk) := (formatXK_mask _ _ _)
theorem sneImm (x : Reg) (kk : Byte) : Statement (.sneImm x kk) := (formatXK_mask _ _ _)
theorem seReg (x y : Reg) : Statement (.seReg x y) := (formatXY_mask _ _ _ _)
theorem sneReg (x y : Reg) : Statement (.sneReg x y) := (formatXY_mask _ _ _ _)
theorem ldImm (x : Reg) (kk : Byte) : Statement (.ldImm x kk) := (formatXK_mask _ _ _)
theorem addImm (x : Reg) (kk : Byte) : Statement (.addImm x kk) := (formatXK_mask _ _ _)
theorem ldReg (x y : Reg) : Statement (.ldReg x y) := (formatXY_mask _ _ _ _)
theorem orReg (x y : Reg) : Statement (.orReg x y) := (formatXY_mask _ _ _ _)
theorem andReg (x y : Reg) : Statement (.andReg x y) := (formatXY_mask _ _ _ _)
theorem xorReg (x y : Reg) : Statement (.xorReg x y) := (formatXY_mask _ _ _ _)
theorem addReg (x y : Reg) : Statement (.addReg x y) := (formatXY_mask _ _ _ _)
theorem subReg (x y : Reg) : Statement (.subReg x y) := (formatXY_mask _ _ _ _)
theorem shr (x y : Reg) : Statement (.shr x y) := (formatXY_mask _ _ _ _)
theorem subnReg (x y : Reg) : Statement (.subnReg x y) := (formatXY_mask _ _ _ _)
theorem shl (x y : Reg) : Statement (.shl x y) := (formatXY_mask _ _ _ _)
theorem ldI (nnn : BitVec 12) : Statement (.ldI nnn) := (formatA_mask _ _)
theorem jpV0 (nnn : BitVec 12) : Statement (.jpV0 nnn) := (formatA_mask _ _)
theorem rnd (x : Reg) (kk : Byte) : Statement (.rnd x kk) := (formatXK_mask _ _ _)
theorem drw (x y : Reg) (n : Fin 16) : Statement (.drw x y n) := (formatXYN_mask _ _ _ _)
theorem skp (x : Reg) : Statement (.skp x) := (formatX_mask _ _ _)
theorem sknp (x : Reg) : Statement (.sknp x) := (formatX_mask _ _ _)
theorem ldVxDT (x : Reg) : Statement (.ldVxDT x) := (formatX_mask _ _ _)
theorem ldVxK (x : Reg) : Statement (.ldVxK x) := (formatX_mask _ _ _)
theorem ldDTVx (x : Reg) : Statement (.ldDTVx x) := (formatX_mask _ _ _)
theorem ldSTVx (x : Reg) : Statement (.ldSTVx x) := (formatX_mask _ _ _)
theorem addI (x : Reg) : Statement (.addI x) := (formatX_mask _ _ _)
theorem ldF (x : Reg) : Statement (.ldF x) := (formatX_mask _ _ _)
theorem ldB (x : Reg) : Statement (.ldB x) := (formatX_mask _ _ _)
theorem storeRegs (x : Reg) : Statement (.storeRegs x) := (formatX_mask _ _ _)
theorem loadRegs (x : Reg) : Statement (.loadRegs x) := (formatX_mask _ _ _)

end EncodesRow

end Sys2Proof.Laws
end

