-- ==== Sys2Proof/Tests/Slice0.lean ====
section
/-! SUPPORT. The model's own tests: expected values from spec/95_test_vectors.md (the vector's name stands in each
docstring) and from the encodings of 30_encoding.md R71 to R74, and the witnesses of the statements' hypotheses. -/

namespace Sys2Proof.Tests
open Sys2Proof.Machine

/-- A refusal under the name q. -/
def refusedAs {α : Type} (r : Host.Outcome α Fault Refusal) (q : Refusal) : Bool :=
  match r with
  | .next _ => false
  | .fault _ => false
  | .refused q' => q' == q

/-- A next state, of which p holds. -/
def nextIs {α : Type} (r : Host.Outcome α Fault Refusal) (p : α → Bool) : Bool :=
  match r with
  | .next t => p t
  | .fault _ => false
  | .refused _ => false

/-! ## WellFormed -/

/-- R61: a font table of 79 bytes is no 80 bytes. -/
theorem test_wellFormed_refuses_short_font : Action.wellFormed (.loadFont (List.replicate 79 0x00)) = false := by decide

theorem test_wellFormed_accepts_font : Action.wellFormed (.loadFont Config.defaultFont) = true := by decide

theorem test_wellFormed_accepts_long_program : Action.wellFormed (.loadProgram (List.replicate 9 0x00)) = true := by
  decide

/-- The machine refuses what the check refuses (R61). -/
theorem test_machine_refuses_short_font : refusedAs (System.reset.act (.loadFont [0x00])) .fontNotEightyBytes = true := by
  decide

/-! ## Decoding: a word of every constructor, written out from R71 to R74 -/

theorem test_decode_family0 : decodeWord 0b0000000011100000 = .known .cls ∧ decodeWord 0b0000000011101110 = .known .ret := by
  decide

theorem test_decode_formatA : decodeWord 0b0001001000110100 = .known (.jp 0x234) ∧
    decodeWord 0b0010101000000001 = .known (.call 0xA01) ∧ decodeWord 0b1010001100001111 = .known (.ldI 0x30F) ∧
      decodeWord 0b1011010100100011 = .known (.jpV0 0x523) := by decide

theorem test_decode_formatXK : decodeWord 0b0011001100000101 = .known (.seImm 3 0x05) ∧
    decodeWord 0b0100101001011100 = .known (.sneImm 10 0x5C) ∧ decodeWord 0b0110101000101011 = .known (.ldImm 10 0x2B) ∧
      decodeWord 0b0111111000000011 = .known (.addImm 14 0x03) ∧ decodeWord 0b1100001100001111 = .known (.rnd 3 0x0F) := by
  decide

theorem test_decode_formatXY : decodeWord 0b0101101010110000 = .known (.seReg 10 11) ∧
    decodeWord 0b1001101010110000 = .known (.sneReg 10 11) ∧ decodeWord 0b1000000100100000 = .known (.ldReg 1 2) ∧
      decodeWord 0b1000000100100001 = .known (.orReg 1 2) ∧ decodeWord 0b1000000100100010 = .known (.andReg 1 2) ∧
        decodeWord 0b1000000100100011 = .known (.xorReg 1 2) ∧ decodeWord 0b1000000100100100 = .known (.addReg 1 2) := by
  decide

theorem test_decode_family8 : decodeWord 0b1000000100100101 = .known (.subReg 1 2) ∧
    decodeWord 0b1000000100100110 = .known (.shr 1 2) ∧ decodeWord 0b1000000100100111 = .known (.subnReg 1 2) ∧
      decodeWord 0b1000000100101110 = .known (.shl 1 2) := by decide

theorem test_decode_formatXYN : decodeWord 0b1101101010110111 = .known (.drw 10 11 7) := by decide

theorem test_decode_familyE : decodeWord 0b1110010110011110 = .known (.skp 5) ∧
    decodeWord 0b1110010110100001 = .known (.sknp 5) := by decide

theorem test_decode_familyF : decodeWord 0b1111000100000111 = .known (.ldVxDT 1) ∧
    decodeWord 0b1111001100001010 = .known (.ldVxK 3) ∧ decodeWord 0b1111001000010101 = .known (.ldDTVx 2) ∧
      decodeWord 0b1111001000011000 = .known (.ldSTVx 2) ∧ decodeWord 0b1111010000011110 = .known (.addI 4) ∧
        decodeWord 0b1111101000101001 = .known (.ldF 10) ∧ decodeWord 0b1111001100110011 = .known (.ldB 3) ∧
          decodeWord 0b1111001001010101 = .known (.storeRegs 2) ∧ decodeWord 0b1111001001100101 = .known (.loadRegs 2) := by
  decide

/-- R77, R79: FD1 to FD6, and a word of SCHIP and of XO-CHIP. -/
theorem test_decode_unknown : decodeWord 0x0FFF = .unknown 0x0FFF ∧ decodeWord 0x8128 = .unknown 0x8128 ∧
    decodeWord 0x5121 = .unknown 0x5121 ∧ decodeWord 0x9121 = .unknown 0x9121 ∧ decodeWord 0xE0FF = .unknown 0xE0FF ∧
      decodeWord 0xF0FF = .unknown 0xF0FF ∧ decodeWord 0x00FE = .unknown 0x00FE ∧ decodeWord 0xF000 = .unknown 0xF000 := by
  decide

/-- R53, R70: big-endian, and the bytes after the instruction are given back. -/
theorem test_decode_bytes : decode [0x22, 0x10, 0x00] = .ok (.call 0x210, [0x00]) := by decide

theorem test_decode_rejects_by_name : decode [0x0F, 0xFF] = .error (.unknownOpcode 0x0FFF) ∧
    decode [0x12] = .error (.truncated 1) := by decide

theorem test_encode : encode (.drw 10 11 7) = 0xDAB7 ∧ encode (.shl 1 2) = 0x812E ∧ encode (.sknp 5) = 0xE5A1 ∧
    encode (.jpV0 0x523) = 0xB523 ∧ encode (.sneReg 1 2) = 0x9120 ∧ encode (.rnd 3 0x0F) = 0xC30F := by decide

/-- The table's first row's word, by the host's own interface. -/
theorem test_decodeTableWord : decodeTableWord 16 0x00E0 = some .cls ∧ decodeTableWord 16 0xF065 = some (.loadRegs 0) := by
  decide

/-! ## One step

`after w s p` says that one step of the word w at 0x200, from s, answers a next state of which p holds. -/

/-- The conventions of 95_test_vectors.md: w, big-endian, at 0x200. -/
def at200 (w : Word) (s : State) : State := s.setMem (s.mem.writeBytes 0x200 [hiByte w, loByte w])

/-- One step of w at 0x200, from s, answers a next state of which p holds. -/
def after (w : Word) (s : State) (p : State → Bool) : Bool := nextIs (step (at200 w s)) p

/-- Reset with three registers set. -/
def regs (x : Reg) (a : Byte) (y : Reg) (b : Byte) (z : Reg) (c : Byte) : State :=
  ((State.reset.setReg x a).setReg y b).setReg z c

/-- Reset with I set, and bytes at I. -/
def atI (i : Word) (bs : List Byte) : State := (State.reset.setI i).setMem (Memory.writeBytes [] i.toNat bs)

/-- S10, FD1. -/
theorem test_unknown_word : after 0x0FFF State.reset
    (· == (((at200 0x0FFF State.reset).setPc 0x202).emit 0x200 0x0FFF)) = true := by decide

/-- FD8. -/
theorem test_fetch_fault : nextIs (step (State.reset.setPc 0xFFF))
    (· == ((State.reset.setPc 0xFFF).setRun (.halted (.outOfRangeMemory 0xFFF 0x1000)))) = true := by decide

/-- FD9: an odd pc. -/
theorem test_odd_pc : nextIs (step ((State.reset.setPc 0x201).setMem [(0x201, 0x60), (0x202, 0x05)]))
    (fun t => t.reg 0 == 0x05 && t.pc == 0x203) = true := by decide

/-- FD10. -/
theorem test_step_in_waitKey : nextIs (step ((at200 0x6005 State.reset).setRun (.waitKey 3)))
    (· == ((at200 0x6005 State.reset).setRun (.waitKey 3))) = true := by decide

/-- CT8. -/
theorem test_ret_underflow : after 0x00EE State.reset
    (· == ((at200 0x00EE State.reset).setRun (.halted (.stackUnderflow 0x200 0)))) = true := by decide

/-- CT7. -/
theorem test_ret : after 0x00EE ((State.reset.setSP 1).setStack 1 0x206)
    (fun t => t.pc == 0x206 && t.SP == 0 && t.stack[1] == 0x206) = true := by decide

/-- CT1. -/
theorem test_jp : after 0x1234 State.reset (fun t => t.pc == 0x234) = true := by decide

/-- CT6. -/
theorem test_call_overflow : after 0x2300 (State.reset.setSP 15)
    (· == ((at200 0x2300 (State.reset.setSP 15)).setRun (.halted (.stackOverflow 0x200 15)))) = true := by decide

/-- CT5: the return address 0x1000. -/
theorem test_call : nextIs (step ((State.reset.setPc 0xFFE).setMem [(0xFFE, 0x2A)]))
    (fun t => t.SP == 1 && t.stack[1] == 0x1000 && t.stack[0] == 0 && t.pc == 0xA00) = true := by decide

/-- CT10: no 12-bit wrap. -/
theorem test_jpV0 : after 0xBFFF (State.reset.setReg 0 0xFF) (fun t => t.pc == 0x10FE) = true := by decide

/-- CT11: the x field is part of nnn. -/
theorem test_jpV0_reads_V0 : after 0xB523 (State.reset.setReg 5 0x22) (fun t => t.pc == 0x523) = true := by
  decide

/-- CT12, CT13. -/
theorem test_seImm : after 0x3305 (State.reset.setReg 3 0x05) (fun t => t.pc == 0x204) = true ∧
    after 0x3305 (State.reset.setReg 3 0x04) (fun t => t.pc == 0x202) = true := by decide

/-- CT14, CT15. -/
theorem test_sneImm : after 0x4000 (State.reset.setReg 0 0x01) (fun t => t.pc == 0x204) = true ∧
    after 0x4000 State.reset (fun t => t.pc == 0x202) = true := by decide

/-- CT16, CT17. -/
theorem test_seReg : after 0x5120 (regs 1 0x7F 2 0x7F 3 0) (fun t => t.pc == 0x204) = true ∧
    after 0x5120 (regs 1 0x7F 2 0x7E 3 0) (fun t => t.pc == 0x202) = true := by decide

/-- CT19, CT20. -/
theorem test_sneReg : after 0x9120 (regs 1 1 2 2 3 0) (fun t => t.pc == 0x204) = true ∧
    after 0x9110 State.reset (fun t => t.pc == 0x202) = true := by decide

/-- AL1. -/
theorem test_ldImm : after 0x6A2B State.reset (fun t => t.reg 10 == 0x2B && t.pc == 0x202) = true := by
  decide

/-- AL4: a wrap, and no flag. -/
theorem test_addImm : after 0x7001 (regs 0 0xFF VF 0x55 1 0)
    (fun t => t.reg 0 == 0x00 && t.reg VF == 0x55) = true := by decide

/-- AL5. -/
theorem test_ldReg : after 0x8120 (regs 1 1 2 0x55 3 0) (fun t => t.reg 1 == 0x55 && t.reg 2 == 0x55) = true := by
  decide

/-- AL6. -/
theorem test_orReg : after 0x8121 (regs 1 0x0F 2 0xF0 VF 1) (fun t => t.reg 1 == 0xFF && t.reg VF == 1) = true := by
  decide

/-- AL7. -/
theorem test_andReg : after 0x8122 (regs 1 0x3C 2 0x0F VF 9) (fun t => t.reg 1 == 0x0C && t.reg VF == 9) = true := by
  decide

/-- AL8. -/
theorem test_xorReg : after 0x8123 (regs 1 0xFF 2 0x0F VF 9) (fun t => t.reg 1 == 0xF0 && t.reg VF == 9) = true := by
  decide

/-- S1, and AL11: with x = F the sum overwrites the carry. -/
theorem test_addReg : after 0x8124 (regs 1 0xC8 2 0x64 3 0) (fun t => t.reg 1 == 0x2C && t.reg VF == 1) = true ∧
    after 0x8F14 (regs VF 0xC8 1 0x64 3 0) (fun t => t.reg VF == 0x2C) = true := by decide

/-- AL10: with y = F the operand is the old VF. -/
theorem test_addReg_y_is_VF : after 0x81F4 (regs 1 0xFF VF 0x01 3 0)
    (fun t => t.reg 1 == 0x00 && t.reg VF == 1) = true := by decide

/-- S2: strict, so equal operands give 0. -/
theorem test_subReg : after 0x8125 (regs 1 0x0A 2 0x03 3 0) (fun t => t.reg 1 == 0x07 && t.reg VF == 1) = true ∧
    after 0x8125 (regs 1 0x05 2 0x05 VF 1) (fun t => t.reg 1 == 0 && t.reg VF == 0) = true := by decide

/-- AL15: with x = F the difference overwrites the flag. -/
theorem test_subReg_x_is_VF : after 0x8F15 (regs VF 0x05 1 0x07 3 0) (fun t => t.reg VF == 0xFE) = true := by
  decide

/-- AL16, AL18: y is ignored. -/
theorem test_shr : after 0x8106 (State.reset.setReg 1 0xB3) (fun t => t.reg 1 == 0x59 && t.reg VF == 1) = true ∧
    after 0x8126 (regs 1 0x02 2 0xFF 3 0)
      (fun t => t.reg 1 == 0x01 && t.reg VF == 0 && t.reg 2 == 0xFF) = true := by decide

/-- S2, AL22. -/
theorem test_subnReg : after 0x8127 (regs 1 0x03 2 0x0A 3 0) (fun t => t.reg 1 == 0x07 && t.reg VF == 1) = true ∧
    after 0x8127 (regs 1 0x01 2 0x00 3 0) (fun t => t.reg 1 == 0xFF && t.reg VF == 0) = true := by decide

/-- AL23, AL26. -/
theorem test_shl : after 0x810E (State.reset.setReg 1 0xB3) (fun t => t.reg 1 == 0x66 && t.reg VF == 1) = true ∧
    after 0x8F0E (State.reset.setReg VF 0x81) (fun t => t.reg VF == 0x02) = true := by decide

/-- AL28: for every random byte. -/
theorem test_rnd_masked : ∀ s : State, (s.setReg 3 (s.randByte &&& 0x00)).reg 3 = 0x00 := by
  intro s; simp

/-- IM1. -/
theorem test_ldI : after 0xA300 State.reset (fun t => t.I == 0x300) = true := by decide

/-- IM2, IM3. -/
theorem test_addI : after 0xF01E ((State.reset.setI 0x0FFE).setReg 0 0x05)
      (fun t => t.I == 0x1003 && t.reg VF == 0) = true ∧
    after 0xF01E ((State.reset.setI 0xFFFF).setReg 0 0x01) (fun t => t.I == 0x0000) = true := by decide

/-- IM4, IM6. -/
theorem test_ldF : after 0xF029 (State.reset.setReg 0 0x0A) (fun t => t.I == 0x032) = true ∧
    after 0xF029 (State.reset.setReg 0 0xFF) (fun t => t.I == 0x4FB) = true := by decide

/-- S7, IM8 (the listed cells disappear: zero is what an unlisted address reads as). -/
theorem test_ldB : after 0xF333 ((State.reset.setI 0x300).setReg 3 0xEA)
      (fun t => t.mem.readBytes 0x300 3 == [2, 3, 4]) = true ∧
    after 0xF333 (atI 0x300 [0x11, 0x11, 0x11]) (fun t => t.mem == [(0x200, 0xF3), (0x201, 0x33)]) = true := by
  decide

/-- IM9, IM10. -/
theorem test_ldB_top : after 0xF333 ((State.reset.setI 0xFFE).setReg 3 0x07)
      (fun t => t.run == .halted (.outOfRangeMemory 0x200 0x1000) && t.mem.read 0xFFE == 0 && t.pc == 0x200) = true ∧
    after 0xF333 ((State.reset.setI 0xFFD).setReg 3 0x07) (fun t => t.mem.readBytes 0xFFD 3 == [0, 0, 7]) = true := by
  decide

/-- IM11, IM17. -/
theorem test_storeRegs : after 0xF255 ((regs 0 1 1 2 2 3).setI 0x400)
      (fun t => t.mem.readBytes 0x400 4 == [1, 2, 3, 0] && t.I == 0x400) = true ∧
    after 0xF055 ((State.reset.setI 0x200).setReg 0 0x12) (fun t => t.mem.read 0x200 == 0x12 && t.pc == 0x202) = true := by
  decide

/-- IM15, IM16. -/
theorem test_loadRegs : after 0xF265 ((atI 0x300 [2, 3, 4]).setReg 3 0x99)
      (fun t => t.reg 0 == 2 && t.reg 1 == 3 && t.reg 2 == 4 && t.reg 3 == 0x99 && t.I == 0x300) = true ∧
    after 0xF065 (State.reset.setI 0x1000) (fun t => t.run == .halted (.outOfRangeMemory 0x200 0x1000)) = true := by
  decide

/-- DP1. -/
theorem test_cls : after 0x00E0 (State.reset.setFb (State.reset.fb.setPix 5 7 true))
    (fun t => t.fb.pix 5 7 == false && t.pc == 0x202) = true := by decide

/-- S6: columns wrap. -/
theorem test_drw_wraps : after 0xD011 ((atI 0x300 [0xFF]).setReg 0 60)
    (fun t => t.fb.pix 59 0 == false && t.fb.pix 60 0 && t.fb.pix 63 0 && t.fb.pix 0 0 && t.fb.pix 3 0 && t.fb.pix 4 0 == false &&
      t.reg VF == 0) = true := by decide

/-- DP8: a collision. -/
theorem test_drw_collides : after 0xD011 ((atI 0x300 [0x80]).setFb ((State.reset.fb.setPix 0 0 true).setPix 1 0 true))
    (fun t => t.fb.pix 0 0 == false && t.fb.pix 1 0 && t.reg VF == 1) = true := by decide

/-- S5 at one pixel: on a clear framebuffer the second of two equal draws collides, and turns the pixel off again. -/
theorem test_second_draw_collides : (drawSprite 0 0 [0x80] Framebuffer.clear).1 = false ∧
    (drawSprite 0 0 [0x80] (drawSprite 0 0 [0x80] Framebuffer.clear).2).1 = true ∧
      (drawSprite 0 0 [0x80] (drawSprite 0 0 [0x80] Framebuffer.clear).2).2.pix 0 0 = false := by decide

/-- R166 by hand, where R170's last clause fails (log 10): the pixel is on, so the first draw collides and turns it off,
and the second meets an off pixel; so do the second and third DRW of 95_test_vectors.md P3. -/
theorem test_second_draw_may_not_collide : (drawSprite 0 0 [0x80] (Framebuffer.clear.setPix 0 0 true)).1 = true ∧
    (drawSprite 0 0 [0x80] (drawSprite 0 0 [0x80] (Framebuffer.clear.setPix 0 0 true)).2).1 = false := by decide

/-- Whatever draws (no definition of the model is used but the pixel): if it meets R170's second bullet (XOR with the
mask) and third (a collision exactly when fb and the mask share an on pixel), then the second of two equal draws does
not collide where the mask's pixels were all on. So no model meets these two and R170's last clause (log 10). -/
theorem no_second_collision_by_R170_bullets_two_and_three (mask : Fin 64 → Fin 32 → Prop)
    (draw : Framebuffer → Bool × Framebuffer)
    (isXor : ∀ fb px py, (draw fb).2.pix px py = true ↔ (fb.pix px py = true ↔ ¬mask px py))
    (collides : ∀ fb, (draw fb).1 = true ↔ ∃ px py, fb.pix px py = true ∧ mask px py)
    (fb : Framebuffer) (allOn : ∀ px py, mask px py → fb.pix px py = true) : (draw (draw fb).2).1 = false := by
  rw [Bool.eq_false_iff, Ne, collides]
  rintro ⟨px, py, on, hm⟩
  exact ((isXor fb px py).1 on).1 (allOn px py hm) hm

/-- TK1, TK5. -/
theorem test_skp : after 0xE59E ((State.reset.setReg 5 0x0A).setKey 10 true) (fun t => t.pc == 0x204) = true ∧
    after 0xE59E (State.reset.setReg 5 0x10)
      (fun t => t.run == .halted (.outOfRangeKey 0x200 16) && t.pc == 0x200) = true := by decide

/-- TK3, TK4. -/
theorem test_sknp : after 0xE5A1 (State.reset.setReg 5 0x0A) (fun t => t.pc == 0x204) = true ∧
    after 0xE5A1 ((State.reset.setReg 5 0x0A).setKey 10 true) (fun t => t.pc == 0x202) = true := by decide

/-- TK6. -/
theorem test_ldVxDT : after 0xF107 (State.reset.setDT 0x3C) (fun t => t.reg 1 == 0x3C) = true := by decide

/-- TK11. -/
theorem test_ldVxK : after 0xF30A (State.reset.setKey 7 true)
    (fun t => t.run == .waitKey 3 && t.pc == 0x202 && t.reg 3 == 0) = true := by decide

/-- TK7. -/
theorem test_ldDTVx : after 0xF215 (State.reset.setReg 2 5)
    (fun t => t.DT == 5 && (tick t).DT == 4 && (tick (t.setDT 0)).DT == 0) = true := by decide

/-- TK8, TK9. -/
theorem test_ldSTVx : after 0xF218 (State.reset.setReg 2 2)
      (fun t => t.ST == 2 && t.tone && (tick t).tone && (tick (tick t)).tone == false) = true ∧
    after 0xF018 (State.reset.setST 3) (fun t => t.tone == false) = true := by decide

/-! ## The host's actions -/

/-- TK12, TK13. -/
theorem test_keys_end_wait :
    (keyUp 7 ((State.reset.setKey 7 true).setRun (.waitKey 3))).run = .waitKey 3 ∧
      (keyDown 7 (State.reset.setRun (.waitKey 3))).run = .running ∧
        (keyDown 7 (State.reset.setRun (.waitKey 3))).reg 3 = 7 ∧
          (keyDown 7 (State.reset.setRun (.waitKey 3))).keyIsDown 7 = true := by decide

/-- LP1, LP3. -/
theorem test_launch : nextIs (System.launchWith Config.defaultFont [0x12, 0x00])
    (fun y => y.core.mem.readBytes 0x000 6 == [0xF0, 0x90, 0x90, 0x90, 0xF0, 0x20] &&
      y.core.mem.readBytes 0x200 3 == [0x12, 0x00, 0x00] && y.launch.loadResult == some .ok) = true := by decide

/-- R231: a load after a Step is refused. -/
theorem test_load_after_step : refusedAs (System.acts [.step, .loadProgram [0x12]] System.reset) .loadAfterStart = true := by
  decide

/-- The word that withFetchWord places is fetched next, also where nothing was fetched (log 6). -/
theorem test_withFetchWord : (State.reset.withFetchWord 16 0x1234).fetch = .ok 0x1234 ∧
    ((State.reset.setPc 0xFFF).withFetchWord 16 0x1234).fetch = .ok 0x1234 := by decide

/-! ## Witnesses: states and operands that meet the hypotheses of each statement, at the boundaries of each clause -/

/-- Reset with the program counter, I, SP or run set. -/
def withPc (w : Word) : State := State.reset.setPc w
def withI (w : Word) : State := State.reset.setI w
def withSP (b : Byte) : State := State.reset.setSP b
def withRun (r : Run) : State := State.reset.setRun r

/-- A fault record R200 allows, of the fetch at 0x200. -/
def someFault : FaultRecord := .stackUnderflow 0x200 0

theorem witness_DecodeOfEncodeIsTheInstruction : Instr.wellFormed (.drw 10 11 7) = true := by decide

theorem witness_EncodeOfDecodeIsTheWord : decodeWord 0x812E = .known (.shl 1 2) ∧ decodeWord 0xFFFF = .unknown 0xFFFF := by
  decide

/-- Each clause: halted, waiting, a fetch at 0xFFF, and a fetch at 0xFFE of a known and of an UNKNOWN word. -/
theorem witness_StepRunsTheDecodedInstruction :
    ((withRun (.halted someFault)).run = .halted someFault ∧ (withRun (.waitKey 3)).run = .waitKey 3) ∧
      ((withPc 0xFFF).run = .running ∧ 0xFFF ≤ (withPc 0xFFF).pc.toNat) ∧
        (∃ (s : State) (w : Word) (i : Instr), s.run = .running ∧ s.pc.toNat = 0xFFE ∧
          w.toNat = (s.mem.read s.pc.toNat).toNat * 256 + (s.mem.read (s.pc.toNat + 1)).toNat ∧
            decodeWord w = .known i) ∧
          ∃ (s : State) (w : Word), s.run = .running ∧ s.pc.toNat = 0xFFE ∧
            w.toNat = (s.mem.read s.pc.toNat).toNat * 256 + (s.mem.read (s.pc.toNat + 1)).toNat ∧
              decodeWord w = .unknown w :=
  ⟨by decide, by decide, ⟨(withPc 0xFFE).setMem [(0xFFE, 0x2A)], 0x2A00, .call 0xA00, by decide⟩, ⟨withPc 0xFFE, 0x0000, by decide⟩⟩

/-- The whole register block stored up to 0xFFF, its last pair fetched. -/
theorem witness_StoredBytesAreFetchedNext : ∃ (x k : Reg) (s : State) (A : Word), k.val + 1 < 16 ∧ s.mem.wf ∧
    s.I.toNat + x.val = 0xFFF ∧ k.val + 1 ≤ x.val ∧ A.toNat = s.I.toNat + k.val :=
  ⟨15, 14, withI 0xFF0, 0xFFE, by decide⟩

theorem witness_FatalFaultIsPreciseAndFinal :
    (∃ (s t : State) (r : FaultRecord), s.run = .running ∧ step s = .next t ∧ t.run = .halted r) ∧
      (withRun (.halted someFault)).run = .halted someFault :=
  ⟨⟨withPc 0xFFF, _, _, rfl, rfl, rfl⟩, rfl⟩

/-- One witness for each kind of fault. -/
theorem witness_EachInstructionRaisesOneFaultKind :
    (∃ t r, exec .ret State.reset = .next t ∧ t.run = .halted r) ∧
      (∃ t r, exec (.call 0x300) (withSP 15) = .next t ∧ t.run = .halted r) ∧
        (∃ t r, exec (.ldB 3) (withI 0xFFE) = .next t ∧ t.run = .halted r) ∧
          (∃ t r, exec (.drw 0 0 1) (withI 0x1000) = .next t ∧ t.run = .halted r) ∧
            ∃ t r, exec (.skp 5) (State.reset.setReg 5 0x10) = .next t ∧ t.run = .halted r :=
  ⟨⟨_, _, rfl, rfl⟩, ⟨_, _, rfl, rfl⟩, ⟨_, _, rfl, rfl⟩, ⟨_, _, rfl, rfl⟩, ⟨_, _, rfl, rfl⟩⟩

/-- A range that just leaves memory, ranges that just do not, and an instruction with none. -/
theorem witness_WholeRangeIsCheckedFirst :
    (0 < Instr.accessLength (.ldB 3) ∧ 0x1000 < (withI 0xFFE).I.toNat + Instr.accessLength (.ldB 3)) ∧
      ((withI 0xFFD).I.toNat + Instr.accessLength (.ldB 3) ≤ 0x1000 ∧ ∃ t, exec (.ldB 3) (withI 0xFFD) = .next t) ∧
        (Instr.accessLength .cls = 0 ∧ ∃ t, exec .cls State.reset = .next t) ∧
          ((withPc 0xFFF).run = .running ∧ 0x1000 < (withPc 0xFFF).pc.toNat + 2) :=
  ⟨by decide, ⟨by decide, ⟨_, rfl⟩⟩, ⟨rfl, ⟨_, rfl⟩⟩, by decide⟩

/-- SP at 0, at 1 and at 15. -/
theorem witness_ReturnPopsTheCallStack : State.reset.SP = 0 ∧ (withSP 1).SP.toNat = (1 : Fin 16).val ∧
    (withSP 15).SP.toNat = (15 : Fin 16).val := by decide

/-- SP at 15, at 14 and at 0. -/
theorem witness_CallPushesTheReturnAddress : (withSP 15).SP = 15 ∧ (withSP 14).SP.toNat + 1 = (15 : Fin 16).val ∧
    State.reset.SP.toNat + 1 = (1 : Fin 16).val ∧ (0 : Fin 16) ≠ 1 := by decide

theorem witness_ReturnUndoesCall : (withSP 14).SP.toNat < 15 ∧ State.reset.SP.toNat < 15 := by decide

/-- For AddSetsCarry, SubtractSetsStrictNotBorrow, ShiftsMoveOneBit, ResultOverwritesTheFlagInVF and
OnlySixInstructionsWriteVFAsAFlag: a destination that is not VF. -/
theorem witness_destination_not_VF : (1 : Reg) ≠ VF ∧ (14 : Reg) ≠ VF := by decide

/-- I + 2 at 0x1000 and at 0xFFF. -/
theorem witness_DecimalDigitsAreStored : 0x1000 ≤ (withI 0xFFE).I.toNat + 2 ∧
    (withI 0xFFD).mem.wf ∧ (withI 0xFFD).I.toNat + 2 < 0x1000 := by decide

/-- I + x at 0x1000 and at 0xFFF, for x = 0 and x = 15; a register inside the block. -/
theorem witness_RegistersAreStored : 0x1000 ≤ (withI 0x1000).I.toNat + (0 : Reg).val ∧
    0x1000 ≤ (withI 0xFF1).I.toNat + (15 : Reg).val ∧ (withI 0xFF0).mem.wf ∧
      (withI 0xFF0).I.toNat + (15 : Reg).val < 0x1000 ∧ (withI 0xFFF).I.toNat + (0 : Reg).val < 0x1000 ∧
        (15 : Reg) ≤ 15 := by decide

/-- As for the stores; and a register above the block. -/
theorem witness_RegistersAreLoaded : 0x1000 ≤ (withI 0xFF1).I.toNat + (15 : Reg).val ∧
    (withI 0xFF0).I.toNat + (15 : Reg).val < 0x1000 ∧ (2 : Reg) ≤ 2 ∧ (2 : Reg) < 3 := by decide

/-- The last address in memory, and the first outside. -/
theorem witness_OneByteAccesses : State.reset.mem.wf ∧ (0xFFF : Nat) ≤ 0xFFF ∧ 0x1000 ≤ (0x1000 : Nat) := by decide

theorem witness_BlocksAreAscendingOneByteAccesses : 0xFF0 + 16 ≤ 0x1000 ∧ 15 < 16 ∧
    0xFFD + (List.replicate 3 (0x07 : Byte)).length ≤ 0x1000 := by decide

/-- n rows that just leave memory, that just do not, and none (DP5, DP6, DP7). -/
theorem witness_DrawSetsCollision : (0 < (5 : Fin 16).val ∧ 0x1000 ≤ (withI 0xFFD).I.toNat + (5 : Fin 16).val - 1) ∧
    (withI 0xFFD).I.toNat + (3 : Fin 16).val - 1 < 0x1000 ∧ (0 : Fin 16).val = 0 := by decide

/-- Fifteen rows, and a first draw that reports no collision. -/
theorem witness_DoubleDrawRestores : (List.replicate 15 (0xFF : Byte)).length ≤ 15 ∧
    (drawSprite 0 0 [0x80] Framebuffer.clear).1 = false := by decide

/-- A key other than the one pressed. -/
theorem witness_KeyWaitEndsOnKeyDownOnly : (7 : Key) ≠ 0 ∧ (7 : Key) ≠ 15 := by decide

/-- Glyph 0, and a mask with an on pixel that wraps. -/
theorem witness_SpriteIsXorWithItsMask : [0xF0, 0x90, 0x90, 0x90, 0xF0].length ≤ 15 ∧ maskOn 63 31 [0xF0, 0x90] 0 31 :=
  ⟨by decide, 0, 1, 0xF0, by decide⟩

/-- Key registers at 16 and at 15. -/
theorem witness_SkipOnKeyLevel : 15 < ((State.reset.setReg 5 0x10).reg 5).toNat ∧
    ((State.reset.setReg 5 0x0F).reg 5).toNat = (15 : Key).val := by decide

/-- Halted, and not halted, with ST at 1. -/
theorem witness_TickCountsDown : (withRun (.halted someFault)).run = .halted someFault ∧
    (∀ r, (State.reset.setST 1).run ≠ .halted r) ∧ (State.reset.setST 1).ST = 1 :=
  ⟨rfl, (by intro r h; cases h), rfl⟩

/-- Halted, running, waiting; another key. -/
theorem witness_KeyActions : (withRun (.halted someFault)).run = .halted someFault ∧ (∀ r, State.reset.run ≠ .halted r) ∧
    State.reset.run = .running ∧ (withRun (.waitKey 3)).run = .waitKey 3 ∧ (3 : Key) ≠ 7 :=
  ⟨rfl, (by intro r h; cases h), rfl, rfl, by decide⟩

theorem witness_FontIsLoadedAtZero : Config.defaultFont.length = 80 ∧ State.reset.mem.wf := by decide

/-- 3585 bytes, 3584 bytes and none (LP2, LP4, LP5). -/
theorem witness_ProgramIsLoadedOrRefusedWhole : 3584 < (List.replicate 3585 (0x00 : Byte)).length ∧
    (List.replicate 3584 (0x00 : Byte)).length ≤ 3584 ∧ ([] : List Byte).length ≤ 3584 ∧ State.reset.mem.wf :=
  ⟨by rw [List.length_replicate]; decide, by rw [List.length_replicate], by decide, by decide⟩

/-- Each clause: a launch that succeeds, one that does not, a started one, one with both loads done, and a Step. -/
theorem witness_LaunchLoadsOnceBeforeRunning :
    (Config.defaultFont.length = 80 ∧ ([0x12, 0x00] : List Byte).length ≤ 3584) ∧
      3584 < (List.replicate 3585 (0x00 : Byte)).length ∧
        (∃ y : System, y.launch.failed = false ∧ y.launch.started = true) ∧
          (∃ y : System, y.launch.failed = false ∧ y.launch.started = false ∧ y.launch.fontLoaded = true ∧
            y.launch.loadResult ≠ none) ∧
            (∃ z, System.reset.act .step = .next z) ∧ ∃ z, System.reset.act .tick = .next z :=
  ⟨by decide, by rw [List.length_replicate]; decide, ⟨⟨State.reset, ⟨true, false, none⟩⟩, by decide⟩,
    ⟨⟨State.reset, ⟨false, true, some .ok⟩⟩, by decide⟩, ⟨_, rfl⟩, ⟨_, rfl⟩⟩

/-- An instruction that stores, and one that faults. -/
theorem witness_InstructionsWriteOnlyWhatTheyName : (∃ t, exec (.storeRegs 15) (withI 0xFF0) = .next t) ∧
    ∃ t, exec .ret State.reset = .next t := ⟨⟨_, rfl⟩, ⟨_, rfl⟩⟩

/-- A draw up to 0xFFF, a draw of no rows, and an instruction that does not write VF. -/
theorem witness_OnlySixInstructionsWriteVFAsAFlag :
    ((withI 0xFFD).I.toNat + (3 : Fin 16).val ≤ 0x1000 ∧ ∃ t, exec (.drw 0 1 3) (withI 0xFFD) = .next t) ∧
      (∃ t, exec (.drw 0 1 0) (withI 0x2000) = .next t) ∧
        VF ∉ Instr.destRegs (.orReg 1 2) ∧ ∃ t, exec (.orReg 1 2) State.reset = .next t :=
  ⟨⟨by decide, ⟨_, rfl⟩⟩, ⟨_, rfl⟩, by decide, ⟨_, rfl⟩⟩

/-- SP just above its legal values, and the stop itself. -/
theorem witness_OnlyAnIllegalStackPointerStops : 15 < (withSP 16).SP.toNat ∧ ∃ f, exec .ret (withSP 16) = .fault f :=
  ⟨by decide, _, rfl⟩

/-- A low nibble that is not 0. -/
theorem witness_SkipOnRegisters : (1 : Fin 16) ≠ 0 ∧ (15 : Fin 16) ≠ 0 := by decide

/-- A state at the edges of the invariant: pc at 0x10FE, SP at 15, a return address of 0x1000, a report from 0xFFE. -/
def edge : State := (((withPc 0x10FE).setSP 15).setStack 15 0x1000).emit 0xFFE 0x0FFF |>.setPc 0x10FE

theorem witness_Inv : Inv edge where
  memWf := by decide
  spLegal := by decide
  pcBound := by decide
  stackBound := by decide
  stackBottom := by decide
  haltedAtA := by intro r h; cases h
  diagUnknown := by decide

/-- A halted state that meets the invariant. -/
theorem witness_Inv_halted : Inv (withRun (.halted someFault)) where
  memWf := by decide
  spLegal := by decide
  pcBound := by decide
  stackBound := by decide
  stackBottom := by decide
  haltedAtA := by intro r h; cases h; exact ⟨rfl, rfl⟩
  diagUnknown := by decide

/-- For StepKeepsTheInvariant and LegalStatesAlwaysStep. -/
theorem witness_StepKeepsTheInvariant : ∃ s t, Inv s ∧ step s = .next t := ⟨edge, _, witness_Inv, rfl⟩

theorem witness_EveryActionKeepsTheInvariant : ∃ (a : Action) (y z : System), Inv y.core ∧ y.act a = .next z :=
  ⟨.keyDown 15, ⟨edge, ⟨true, true, some .ok⟩⟩, _, witness_Inv, rfl⟩

/-- CT2: 0x1200 at 0x200; and the last address, 0xFFE. -/
theorem witness_IdleSelfJumpIsAFixedPoint : EndedWell 0x200 (at200 0x1200 State.reset) ∧
    EndedWell 0xFFE ((withPc 0xFFE).setMem [(0xFFE, 0x1F), (0xFFF, 0xFE)]) := by
  unfold EndedWell; decide

/-- A step that reports, and one that does not. -/
theorem witness_LogIsNeverRead : (∃ t, step (at200 0x0FFF State.reset) = .next t) ∧
    ∃ t, step (at200 0x6A2B State.reset) = .next t := ⟨⟨_, rfl⟩, ⟨_, rfl⟩⟩

theorem witness_SoundTimerIsNeverRead : (∃ t, exec (.ldSTVx 2) State.reset = .next t) ∧
    (∃ t, exec (.ldVxDT 2) State.reset = .next t) ∧ ∀ x, Instr.ldVxDT 2 ≠ .ldSTVx x :=
  ⟨⟨_, rfl⟩, ⟨_, rfl⟩, by intro x h; cases h⟩

/-- From a state that fetches, and from one that does not. -/
theorem witness_PlacedWordRunsNext : State.reset.mem.wf ∧ (withPc 0xFFF).mem.wf ∧
    decodeTableWord 16 0x1234 = some (.jp 0x234) := by decide

end Sys2Proof.Tests
end

