-- ==== Sys2Proof/Proofs/Sprite.lean ====
section
/-! PROOF. The whole sprite, from its rows: which pixels it inverts and when it collides (43_display.md R166, R170). -/

namespace Sys2Proof.Machine

/-- Some 1 bit of some row lands on (qx, qy), the first row being row r of the sprite placed at (x, y). -/
def RowsHit (x y r : Nat) (rows : List Byte) (qx : Fin 64) (qy : Fin 32) : Prop :=
  ∃ k row, rows[k]? = some row ∧ RowHits x (rowOf (y + (r + k))) row 8 qx qy

variable {x y r : Nat} {row : Byte} {rows : List Byte} {qx : Fin 64} {qy : Fin 32}

theorem not_rowsHit_nil : ¬RowsHit x y r [] qx qy := by
  rintro ⟨k, row, hk, _⟩
  simp at hk

theorem rowsHit_cons : RowsHit x y r (row :: rows) qx qy ↔
    RowHits x (rowOf (y + r)) row 8 qx qy ∨ RowsHit x y (r + 1) rows qx qy := by
  constructor
  · rintro ⟨_ | k, row', hk, hit⟩
    · obtain rfl : row = row' := by simpa using hk
      exact .inl hit
    · exact .inr ⟨k, row', by simpa using hk, by rwa [Nat.add_right_comm r 1 k]⟩
  · rintro (hit | ⟨k, row', hk, hit⟩)
    · exact ⟨0, row, rfl, hit⟩
    · exact ⟨k + 1, row', by simpa using hk, by rwa [Nat.add_right_comm r 1 k] at hit⟩

/-- R170: from the top row, the hits are the sprite's mask. -/
theorem rowsHit_zero_iff_maskOn : RowsHit x y 0 rows qx qy ↔ maskOn x y rows qx qy := by
  constructor
  · rintro ⟨k, row, hk, b, hb, rfl, rfl, hs⟩
    exact ⟨k, b, row, hk, hb, hs, rfl, by simp [rowOf]⟩
  · rintro ⟨k, b, row, hk, hb, hs, hx, hy⟩
    exact ⟨k, row, hk, b, hb, Fin.ext hx, Fin.ext (by simpa [rowOf] using hy), hs⟩

/-- R170: a sprite of at most 32 rows does not meet itself: what its row r hits, no later row hits. -/
theorem not_rowsHit_of_rowHits (hr : r + (rows.length + 1) ≤ 32) (hit : RowHits x (rowOf (y + r)) row 8 qx qy) :
    ¬RowsHit x y (r + 1) rows qx qy := by
  obtain ⟨-, -, -, rfl, -⟩ := hit
  rintro ⟨k, row', hk, -, -, -, hy, -⟩
  have hlt : k < rows.length := (List.getElem?_eq_some_iff.mp hk).1
  have := rowOf_inj (by omega) (by omega) hy
  omega

/-- The rows of a blit from row r on, all they do: exactly the pixels they hit are inverted, and they collide exactly
when one of those was on before the first of them (R166). -/
theorem blitRows_spec (hr : r + rows.length ≤ 32) (acc : Bool × Framebuffer) :
    (∀ qx qy, (blitRows x y r rows acc).2.pix qx qy = true ↔
        (acc.2.pix qx qy = true ↔ ¬RowsHit x y r rows qx qy)) ∧
      ((blitRows x y r rows acc).1 = true ↔
        acc.1 = true ∨ ∃ qx qy, acc.2.pix qx qy = true ∧ RowsHit x y r rows qx qy) := by
  induction rows generalizing r acc with
  | nil => simp [blitRows, not_rowsHit_nil]
  | cons row rows ih =>
    rw [List.length_cons] at hr
    have disjoint : ∀ qx qy, RowHits x (rowOf (y + r)) row 8 qx qy → ¬RowsHit x y (r + 1) rows qx qy :=
      fun _ _ => not_rowsHit_of_rowHits hr
    obtain ⟨rowPix, rowCollision⟩ := blitRow_spec x (rowOf (y + r)) row acc 8 le_rfl
    simp only [blitRows]
    generalize (List.range 8).foldl (blitBit x (rowOf (y + r)) row) acc = drawn at *
    obtain ⟨restPix, restCollision⟩ := ih (r := r + 1) (by omega) drawn
    constructor
    · intro qx qy
      rw [restPix, rowPix, rowsHit_cons]
      by_cases hit : RowHits x (rowOf (y + r)) row 8 qx qy
      · simp [hit, disjoint qx qy hit]
      · simp [hit]
    · have untouched : ∀ qx qy, drawn.2.pix qx qy = true ∧ RowsHit x y (r + 1) rows qx qy ↔
          acc.2.pix qx qy = true ∧ RowsHit x y (r + 1) rows qx qy := by
        refine fun qx qy => and_congr_left fun rest => ?_
        have miss : ¬RowHits x (rowOf (y + r)) row 8 qx qy := fun hit => disjoint qx qy hit rest
        simp [rowPix, miss]
      rw [restCollision, rowCollision, or_assoc]
      simp only [untouched, rowsHit_cons, and_or_left, exists_or]

/-- R166, R170: drawing is XOR with the sprite's mask, and collides exactly when the mask meets a pixel that was on. -/
theorem drawSprite_spec (hr : rows.length ≤ 32) (fb : Framebuffer) :
    (∀ px py, (drawSprite x y rows fb).2.pix px py = true ↔ (fb.pix px py = true ↔ ¬maskOn x y rows px py)) ∧
      ((drawSprite x y rows fb).1 = true ↔ ∃ px py, fb.pix px py = true ∧ maskOn x y rows px py) := by
  simpa [drawSprite, rowsHit_zero_iff_maskOn] using
    blitRows_spec (x := x) (y := y) (r := 0) (rows := rows) (by omega) (false, fb)

end Sys2Proof.Machine
end

