-- ==== Sys2Proof/Proofs/RegisterFrame.lean ====
section
/-! PROOF. The general registers an instruction leaves unchanged (30_encoding.md R85). -/

namespace Sys2Proof.Machine

variable {s t : State} {rs : List Reg} {x : Reg}

/-- A state with the same register file leaves every register unchanged. -/
theorem onlyRegs_of_V_eq (h : t.V = s.V) : OnlyRegs rs s t := fun r _ => by rw [State.reg, h, State.reg]

theorem onlyRegs_setReg (b : Byte) : OnlyRegs [x] s (s.setReg x b) := fun r hr => by
  rw [State.reg_setReg, if_neg (List.ne_of_not_mem_cons hr)]

theorem onlyRegs_setFlagThenReg (flag b : Byte) : OnlyRegs [VF, x] s (s.setFlagThenReg flag x b) := fun r hr => by
  obtain ⟨hVF, hx⟩ : r ≠ VF ∧ r ≠ x := by simpa using hr
  rw [State.setFlagThenReg_eq, State.reg_setReg, if_neg hx, State.reg_setReg, if_neg hVF]

theorem onlyRegs_skipIf (c : Bool) : OnlyRegs rs s (s.skipIf c) := by
  rw [State.skipIf_eq]; exact onlyRegs_of_V_eq rfl

/-- R202: the fault of a range check writes no register, so only the meaning's own effect counts. -/
theorem onlyRegs_withRange {base n : Nat} {after : State} (h : withRange base n s after = .next t)
    (ha : OnlyRegs rs s after) : OnlyRegs rs s t := by
  obtain ⟨rfl, -⟩ | ⟨rfl, -⟩ := withRange_cases h
  · exact ha
  · exact onlyRegs_of_V_eq rfl

/-- R155: loading the block V0..Vx leaves the registers above x. -/
theorem onlyRegs_setRegBlock (bs : List Byte) (h : bs.length = x.val + 1) :
    OnlyRegs (Instr.loadRegs x).destRegs s (s.setRegBlock 0 bs) := fun r hr => by
  have above : x.val < r.val := by simpa [Instr.destRegs] using hr
  rw [(setRegBlock_spec bs 0 s).2 r, dif_neg (by omega)]

/-- R85: an instruction writes the registers its rule names and no other, whether it faults or not. -/
theorem exec_onlyRegs {i : Instr} (h : exec i s = .next t) : OnlyRegs i.destRegs s t := by
  cases i with
  | cls | jp _ | ldI _ | jpV0 _ | ldVxK _ | ldDTVx _ | ldSTVx _ | addI _ | ldF _ =>
    cases h; exact onlyRegs_of_V_eq rfl
  | seImm _ _ | sneImm _ _ | seReg _ _ | sneReg _ _ => cases h; exact onlyRegs_skipIf _
  | ldImm _ _ | addImm _ _ | ldReg _ _ | orReg _ _ | andReg _ _ | xorReg _ _ | rnd _ _ | ldVxDT _ =>
    cases h; exact onlyRegs_setReg _
  | addReg _ _ | subReg _ _ | shr _ _ | subnReg _ _ | shl _ _ => cases h; exact onlyRegs_setFlagThenReg _ _
  | ret => obtain ⟨-, rfl⟩ | ⟨-, -, rfl⟩ := execRet_cases h <;> exact onlyRegs_of_V_eq rfl
  | call nnn => obtain ⟨-, rfl⟩ | ⟨-, rfl⟩ := execCall_cases h <;> exact onlyRegs_of_V_eq rfl
  | skp x =>
    obtain ⟨-, rfl⟩ | ⟨-, rfl⟩ := execSkp_cases h
    · exact onlyRegs_of_V_eq rfl
    · exact onlyRegs_skipIf _
  | sknp x =>
    obtain ⟨-, rfl⟩ | ⟨-, rfl⟩ := execSknp_cases h
    · exact onlyRegs_of_V_eq rfl
    · exact onlyRegs_skipIf _
  | drw x y n => exact onlyRegs_withRange h (onlyRegs_setReg (s := s.setFb _) _)
  | ldB _ | storeRegs _ => exact onlyRegs_withRange h (onlyRegs_of_V_eq rfl)
  | loadRegs x => exact onlyRegs_withRange h (onlyRegs_setRegBlock _ (Memory.readBytes_length _ _))

end Sys2Proof.Machine
end

