-- ==== Sys2Proof/Proofs/FlagTable.lean ====
section
/-! PROOF. The flag table of 10_state.md R35. -/

namespace Sys2Proof.Machine

variable {s t : State} {x y : Reg}

/-- R84: with a destination other than VF, the flag is what VF holds in the end. -/
theorem State.reg_VF_setFlagThenReg (hx : x ≠ VF) (flag b : Byte) : (s.setFlagThenReg flag x b).reg VF = flag := by
  rw [State.setFlagThenReg_eq, State.reg_setReg, if_neg hx.symm, State.reg_setReg, if_pos rfl]

/-- R169: a draw whose rows lie in memory leaves the collision in VF. -/
theorem reg_VF_of_exec_drw {n : Fin 16} (hn : n.val = 0 ∨ s.I.toNat + n.val ≤ Config.memSize)
    (h : exec (.drw x y n) s = .next t) :
    t.reg VF = flagOf (drawSprite (s.reg x).toNat (s.reg y).toNat (s.spriteRows n) s.fb).1 := by
  obtain rfl := Host.Outcome.next.inj ((withRange_inside hn).symm.trans h)
  rw [State.reg_setReg, if_pos rfl]

/-- R35, 8xy4: the carry. -/
theorem exec_addReg_flag (hx : x ≠ VF) : ∃ t, exec (.addReg x y) s = .next t ∧
    (t.reg VF = 1 ↔ 255 < (s.reg x).toNat + (s.reg y).toNat) ∧ (t.reg VF = 0 ∨ t.reg VF = 1) := by
  refine ⟨_, rfl, ?_⟩
  rw [State.reg_VF_setFlagThenReg hx]
  exact ⟨carryFlag_eq_one, flagOf_eq _⟩

/-- R35, 8xy5: the strict NOT borrow of Vx − Vy. -/
theorem exec_subReg_flag (hx : x ≠ VF) : ∃ t, exec (.subReg x y) s = .next t ∧
    (t.reg VF = 1 ↔ (s.reg x).toNat > (s.reg y).toNat) ∧ (t.reg VF = 0 ∨ t.reg VF = 1) := by
  refine ⟨_, rfl, ?_⟩
  rw [State.reg_VF_setFlagThenReg hx]
  exact ⟨notBorrowFlag_eq_one, flagOf_eq _⟩

/-- R35, 8xy6: the bit shifted out to the right. -/
theorem exec_shr_flag (hx : x ≠ VF) :
    ∃ t, exec (.shr x y) s = .next t ∧ (t.reg VF).toNat = (s.reg x).toNat % 2 := by
  refine ⟨_, rfl, ?_⟩
  rw [State.reg_VF_setFlagThenReg hx, shiftedOutLow_toNat]

/-- R35, 8xy7: the strict NOT borrow of Vy − Vx. -/
theorem exec_subnReg_flag (hx : x ≠ VF) : ∃ t, exec (.subnReg x y) s = .next t ∧
    (t.reg VF = 1 ↔ (s.reg y).toNat > (s.reg x).toNat) ∧ (t.reg VF = 0 ∨ t.reg VF = 1) := by
  refine ⟨_, rfl, ?_⟩
  rw [State.reg_VF_setFlagThenReg hx]
  exact ⟨notBorrowFlag_eq_one, flagOf_eq _⟩

/-- R35, 8xyE: the bit shifted out to the left. -/
theorem exec_shl_flag (hx : x ≠ VF) :
    ∃ t, exec (.shl x y) s = .next t ∧ (t.reg VF).toNat = (s.reg x).toNat / 128 := by
  refine ⟨_, rfl, ?_⟩
  rw [State.reg_VF_setFlagThenReg hx, shiftedOutHigh_toNat]

/-- Settles O45: the table's rows are the flag functions' values, Dxyn's is the collision of the whole sprite, and every
other instruction leaves VF by the frame of its destinations. -/
theorem onlySixInstructionsWriteVFAsAFlag : Obligations.OnlySixInstructionsWriteVFAsAFlag := by
  refine ⟨fun x y s hx => ⟨exec_addReg_flag hx, exec_subReg_flag hx, exec_shr_flag hx, exec_subnReg_flag hx,
    exec_shl_flag hx⟩, fun x y n s t hn h => ?_, fun i s t hVF h => exec_onlyRegs h VF hVF, rfl⟩
  have rowsFit : (s.spriteRows n).length ≤ 32 := by
    rw [State.spriteRows, Memory.readBytes_length]; omega
  rw [reg_VF_of_exec_drw hn h]
  exact ⟨flagOf_eq _, (flagOf_eq_one _).trans (drawSprite_spec rowsFit s.fb).2⟩

end Sys2Proof.Machine
end

