-- ==== Sys2Proof/Proofs/FaultCases.lean ====
section
/-! PROOF. What an execution does to the sub-state: it keeps it, waits for a key, or takes the instruction's own fatal
fault (60_exceptions.md R200, R202, R204). -/

namespace Sys2Proof.Machine

variable {i : Instr} {s t : State} {x : Reg}

/-- What is true of a fault r that instruction i raises from the handler's state s. -/
structure CanRaise (i : Instr) (s : State) (r : FaultRecord) : Prop where
  /-- it is of the instruction's one kind (R200, R204) -/
  kind : i.faultKind = some r.kind
  /-- it records the fetch address A (R37) -/
  fetchAddr : r.fetchAddr = s.pc - 2
  /-- its info is one that R200 allows -/
  legal : FaultRecordLegal r
  /-- an address fault comes from a range at I that reaches 0x1000 (20_memory.md R52) -/
  range : r.kind = .outOfRangeMemory → 0 < i.accessLength ∧ 0x1000 < s.I.toNat + i.accessLength

/-- How an execution that answers t leaves the sub-state. -/
def RunOutcome (i : Instr) (s t : State) : Prop :=
  t.run = s.run ∨ (∃ x, i = .ldVxK x ∧ t.run = .waitKey x) ∨ ∃ r, t = haltedAt r s ∧ CanRaise i s r

/-- R52: a meaning with a range at I keeps the sub-state, or takes the range's fault. -/
theorem runOutcome_withRange {after : State} (hk : i.faultKind = some .outOfRangeMemory)
    (h : withRange s.base i.accessLength s after = .next t) (ha : after.run = s.run) : RunOutcome i s t := by
  obtain ⟨rfl, -⟩ | ⟨rfl, hn, hb⟩ := withRange_cases h
  · exact .inl ha
  · exact .inr (.inr ⟨_, rfl, hk, rfl, le_max_right _ _, fun _ => ⟨Nat.pos_of_ne_zero hn, hb⟩⟩)

theorem runOutcome_skipIf (c : Bool) : RunOutcome i s (s.skipIf c) := .inl (by rw [State.skipIf_eq]; rfl)

/-- R180, R181: a key skip's fault. -/
theorem runOutcome_outOfRangeKey (hk : i.faultKind = some .outOfRangeKey) (hx : 15 < (s.reg x).toNat) :
    RunOutcome i s (haltedAt (.outOfRangeKey s.fetchAddr (s.reg x)) s) :=
  .inr (.inr ⟨_, rfl, hk, rfl, hx, nofun⟩)

/-- R155: loading a register block writes registers only. -/
theorem setRegBlock_run (bs : List Byte) (j : Nat) : (s.setRegBlock j bs).run = s.run := by
  rw [(setRegBlock_spec bs j s).1]

/-- R31, R183, R200: everything an execution can do to the sub-state. -/
theorem exec_runOutcome (h : exec i s = .next t) : RunOutcome i s t := by
  cases i with
  | cls | jp _ | ldI _ | jpV0 _ | ldDTVx _ | ldSTVx _ | addI _ | ldF _ => cases h; exact .inl rfl
  | ldImm _ _ | addImm _ _ | ldReg _ _ | orReg _ _ | andReg _ _ | xorReg _ _ | rnd _ _ | ldVxDT _ =>
    cases h; exact .inl rfl
  | addReg _ _ | subReg _ _ | shr _ _ | subnReg _ _ | shl _ _ => cases h; exact .inl rfl
  | seImm _ _ | sneImm _ _ | seReg _ _ | sneReg _ _ => cases h; exact runOutcome_skipIf _
  | ldVxK x => cases h; exact .inr (.inl ⟨x, rfl, rfl⟩)
  | ret =>
    obtain ⟨hsp, rfl⟩ | ⟨-, -, rfl⟩ := execRet_cases h
    · exact .inr (.inr ⟨_, rfl, rfl, rfl, hsp, nofun⟩)
    · exact .inl rfl
  | call nnn =>
    obtain ⟨hsp, rfl⟩ | ⟨-, rfl⟩ := execCall_cases h
    · exact .inr (.inr ⟨_, rfl, rfl, rfl, BitVec.eq_of_toNat_eq hsp, nofun⟩)
    · exact .inl rfl
  | skp x =>
    obtain ⟨hx, rfl⟩ | ⟨-, rfl⟩ := execSkp_cases h
    · exact runOutcome_outOfRangeKey rfl hx
    · exact runOutcome_skipIf _
  | sknp x =>
    obtain ⟨hx, rfl⟩ | ⟨-, rfl⟩ := execSknp_cases h
    · exact runOutcome_outOfRangeKey rfl hx
    · exact runOutcome_skipIf _
  | drw _ _ _ | ldB _ | storeRegs _ => exact runOutcome_withRange rfl h rfl
  | loadRegs x => exact runOutcome_withRange rfl h (setRegBlock_run _ _)

end Sys2Proof.Machine
end

