-- ==== Sys2Proof/Proofs/RangeCheck.lean ====
section
/-! PROOF. The range check, made before anything is read or written (20_memory.md R52). -/

namespace Sys2Proof.Machine

variable {i : Instr} {s t : State}

/-- R52: an instruction whose range at I reaches 0x1000 takes the fault, with the lowest such address. -/
theorem exec_of_range_outside (hn : 0 < i.accessLength) (h : 0x1000 < s.I.toNat + i.accessLength) :
    exec i s = .next (haltedAt (.outOfRangeMemory (s.pc - 2) (max s.I.toNat 0x1000)) s) := by
  cases i with
  | drw _ _ _ | ldB _ | storeRegs _ | loadRegs _ => exact withRange_outside hn.ne' h
  | _ => exact absurd hn (lt_irrefl 0)

/-- R52: from Running, only a range at I that reaches 0x1000 ends in an address fault. -/
theorem range_outside_of_exec {A : Word} {a : Nat} (hr : s.run = .running) (h : exec i s = .next t)
    (ht : t.run = .halted (.outOfRangeMemory A a)) : 0 < i.accessLength ∧ 0x1000 < s.I.toNat + i.accessLength := by
  obtain kept | ⟨x, -, waits⟩ | ⟨r, rfl, raised⟩ := exec_runOutcome h
  · simp [kept, hr] at ht
  · simp [waits] at ht
  · obtain rfl : r = .outOfRangeMemory A a := Run.halted.inj ht
    exact raised.range rfl

/-- R82: a step of a running core whose fetch faults executes nothing. -/
theorem step_of_fetch_error {r : FaultRecord} (hr : s.run = .running) (hf : s.fetch = .error r) :
    step s = .next { s with run := .halted r } := by
  simp [step, stepAction, cycle, hr, hf, State.setRun]

/-- Settles O10: the four instructions with a range are `withRange` at I, every other address fault is ruled out by the
cases of the sub-state, and a fetch has its own range check. -/
theorem wholeRangeIsCheckedFirst : Obligations.WholeRangeIsCheckedFirst := by
  refine ⟨fun i s hn h => exec_of_range_outside hn h, fun i s t hr hin h A a ht => ?_,
    fun _ _ s => ⟨_, withRange_inside (base := s.base) (s := s) (.inl rfl), rfl⟩,
    fun s hr h => step_of_fetch_error hr (fetch_outside (by omega))⟩
  obtain ⟨hn, hout⟩ := range_outside_of_exec hr h ht
  omega

end Sys2Proof.Machine
end

