-- ==== Sys2Proof/Proofs/MemoryFrame.lean ====
section
/-! PROOF. Writes to memory by one-byte access and by LoadProgram: what is read back and what stays (20_memory.md R50,
R51, R62). -/

namespace Sys2Proof.Machine

variable {s : State} {A : Word} {addr : Nat}

/-- Replacing the memory changes no other part of the state. -/
theorem onlyChanges_setMem (m : Memory) : OnlyChanges [.mem] s (s.setMem m) := by
  intro p hp
  cases p with
  | mem => exact absurd (List.mem_singleton.mpr rfl) hp
  | V | stack | keys => exact fun _ => rfl
  | fb => exact fun _ _ => rfl
  | I | pc | SP | DT | ST | run | diag | draws => rfl

/-- R55: a block write leaves every byte outside the block. -/
theorem onlyBytes_writeBytes (base : Nat) (bs : List Byte) :
    OnlyBytes base bs.length s (s.setMem (s.mem.writeBytes base bs)) :=
  fun _ ha => Memory.read_writeBytes_outside ha

/-- R55, R57: in a canonical memory each byte of a block write is read back. -/
theorem getElem?_eq_read_writeBytes {m : Memory} {bs : List Byte} {base i : Nat} (hm : m.wf) (hi : i < bs.length) :
    bs[i]? = some ((m.writeBytes base bs).read (base + i)) := by
  rw [List.getElem?_eq_getElem hi, Memory.read_writeBytes_inside hm.1 hi]

/-- R50: no fault at an address inside memory. -/
theorem rangeFault_one_inside (h : addr ≤ 0xFFF) : rangeFault A addr 1 = none :=
  rangeFault_none_iff.mpr (.inr (Nat.succ_le_succ h))

/-- R50, R51: the fault names the address itself. -/
theorem rangeFault_one_outside (h : 0x1000 ≤ addr) : rangeFault A addr 1 = some (.outOfRangeMemory A addr) :=
  rangeFault_some_iff.mpr ⟨⟨one_ne_zero, Nat.lt_succ_of_le h⟩, by rw [max_eq_left (show Config.memSize ≤ addr from h)]⟩

theorem memRead_inside (h : addr ≤ 0xFFF) : memRead A addr s = .ok (s.mem.read addr) := by
  simp [memRead, rangeFault_one_inside h]

theorem memRead_outside (h : 0x1000 ≤ addr) : memRead A addr s = .error (.outOfRangeMemory A addr) := by
  simp [memRead, rangeFault_one_outside h]

theorem memWrite_inside (v : Byte) (h : addr ≤ 0xFFF) : memWrite A addr v s = .ok (s.setMem (s.mem.write addr v)) := by
  simp [memWrite, rangeFault_one_inside h]

theorem memWrite_outside (v : Byte) (h : 0x1000 ≤ addr) :
    memWrite A addr v s = .error (.outOfRangeMemory A addr) := by
  simp [memWrite, rangeFault_one_outside h]

/-- Settles O29: each access is its range check of one byte, and a write of one byte is a block write of length 1. -/
theorem oneByteAccesses : Obligations.OneByteAccesses := fun _ addr v _ =>
  ⟨memRead_inside, fun h => ⟨memRead_outside h, memWrite_outside v h⟩, fun hm h =>
    ⟨_, memWrite_inside v h, Memory.read_write_self hm.1, onlyBytes_writeBytes addr [v], onlyChanges_setMem _⟩⟩

/-- Settles O41: LoadProgram refuses whole or is one block write at 0x200. -/
theorem programIsLoadedOrRefusedWhole : Obligations.ProgramIsLoadedOrRefusedWhole := by
  intro b s
  obtain ⟨long, refused⟩ | ⟨fits, loaded⟩ := loadProgram_cases b s
  · exact ⟨fun _ => refused, fun h => absurd long h.not_gt⟩
  · refine ⟨fun h => absurd h fits.not_gt, fun _ hm => ?_⟩
    rw [loaded]
    exact ⟨rfl, fun i hi => getElem?_eq_read_writeBytes hm hi, onlyBytes_writeBytes _ b, onlyChanges_setMem _⟩

end Sys2Proof.Machine
end

