-- ==== Sys2Proof/Proofs/OpcodeTable.lean ====
section
/-! PROOF. The decoder against the opcode table (30_encoding.md R74 to R77): a word satisfies `(w & mask) = match` for a
row exactly when the fields the mask keeps are the row's, and those are the fields the decoder dispatches on. -/

namespace Sys2Proof

variable {w : Word} {i : Instr}

/-- R74: the word spells the row's instruction. -/
def OpcodeRow.Spells (row : OpcodeRow) (w : Word) : Prop := w &&& row.mask = row.val

/-! ## The fields each mask keeps -/

theorem and_F000 (w : Word) : w &&& 0xF000 = formatA (opField w) 0 := by
  rw [← formatA_fields w, Laws.formatA_mask, opField_formatA]; rfl

theorem and_F00F (w : Word) : w &&& 0xF00F = formatXYN (opField w) 0 0 (nField w) := by
  rw [← formatXYN_fields w, Laws.formatXY_mask, opField_formatXYN, nField_formatXYN]; rfl

theorem and_F0FF (w : Word) : w &&& 0xF0FF = formatXK (opField w) 0 (kkField w) := by
  rw [← formatXK_fields w, Laws.formatX_mask, opField_formatXK, kkField_formatXK]; rfl

/-- A word spells a row of formats A, XK and XYN when its opcode nibble is the row's. -/
theorem spells_F000_iff {v : Word} (hv : v &&& 0xF000 = v) :
    OpcodeRow.Spells ⟨v, 0xF000⟩ w ↔ opField w = opField v := by
  constructor
  · intro (h : w &&& 0xF000 = v)
    rw [← h, and_F000, opField_formatA]
  · intro ho
    show w &&& 0xF000 = v
    rw [← hv, and_F000, and_F000, ho]

/-- A word spells a row of format XY when its opcode nibble and its function nibble are the row's. -/
theorem spells_F00F_iff {v : Word} (hv : v &&& 0xF00F = v) :
    OpcodeRow.Spells ⟨v, 0xF00F⟩ w ↔ opField w = opField v ∧ nField w = nField v := by
  constructor
  · intro (h : w &&& 0xF00F = v)
    rw [← h, and_F00F, opField_formatXYN, nField_formatXYN]
    exact ⟨rfl, rfl⟩
  · rintro ⟨ho, hn⟩
    show w &&& 0xF00F = v
    rw [← hv, and_F00F, and_F00F, ho, hn]

/-- A word spells a row of format X when its opcode nibble and its function byte are the row's. -/
theorem spells_F0FF_iff {v : Word} (hv : v &&& 0xF0FF = v) :
    OpcodeRow.Spells ⟨v, 0xF0FF⟩ w ↔ opField w = opField v ∧ kkField w = kkField v := by
  constructor
  · intro (h : w &&& 0xF0FF = v)
    rw [← h, and_F0FF, opField_formatXK, kkField_formatXK]
    exact ⟨rfl, rfl⟩
  · rintro ⟨ho, hkk⟩
    show w &&& 0xF0FF = v
    rw [← hv, and_F0FF, and_F0FF, ho, hkk]

/-- A word spells a row of family 0 when it is the row's word. -/
theorem spells_FFFF_iff {v : Word} : OpcodeRow.Spells ⟨v, 0xFFFF⟩ w ↔ w = v := by
  rw [OpcodeRow.Spells, show w &&& 0xFFFF = w from BitVec.and_allOnes]

/-! ## The function fields of a row's literal -/

@[simp] theorem nField_ofNat (k : Nat) : nField (BitVec.ofNat 16 k) = BitVec.ofNat 4 k := by
  apply BitVec.eq_of_toNat_eq
  rw [nField_toNat, BitVec.toNat_ofNat, BitVec.toNat_ofNat]; omega

@[simp] theorem kkField_ofNat (k : Nat) : kkField (BitVec.ofNat 16 k) = BitVec.ofNat 8 k := by
  apply BitVec.eq_of_toNat_eq
  rw [kkField_toNat, BitVec.toNat_ofNat, BitVec.toNat_ofNat]; omega

/-! ## A decoded word spells the row of its instruction, family by family (R76) -/

/-- One test of the dispatch: the instruction it yields spells its row if the test's field makes it do so. -/
theorem spells_of_ite {c : Prop} [Decidable c] {a : Instr} {d : Decoded} (yes : c → a.row.Spells w)
    (no : d = .known i → i.row.Spells w) : (if c then .known a else d) = .known i → i.row.Spells w := by
  intro h
  split at h
  · next hc => exact Decoded.known.inj h ▸ yes hc
  · exact no h

theorem spells_of_decodeFamily0 : decodeFamily0 w = .known i → i.row.Spells w := by
  unfold decodeFamily0
  iterate 2 refine spells_of_ite spells_FFFF_iff.mpr ?_
  exact nofun

theorem spells_of_decodeFamily5 (ho : opField w = 0x5) : decodeFamily5 w = .known i → i.row.Spells w := by
  unfold decodeFamily5
  refine spells_of_ite (fun hn => (spells_F00F_iff (by rfl)).mpr ⟨ho, hn⟩) ?_
  exact nofun

theorem spells_of_decodeFamily8 (ho : opField w = 0x8) : decodeFamily8 w = .known i → i.row.Spells w := by
  unfold decodeFamily8
  iterate 9 refine spells_of_ite (fun hn => (spells_F00F_iff (by rfl)).mpr ⟨ho, hn⟩) ?_
  exact nofun

theorem spells_of_decodeFamily9 (ho : opField w = 0x9) : decodeFamily9 w = .known i → i.row.Spells w := by
  unfold decodeFamily9
  refine spells_of_ite (fun hn => (spells_F00F_iff (by rfl)).mpr ⟨ho, hn⟩) ?_
  exact nofun

theorem spells_of_decodeFamilyE (ho : opField w = 0xE) : decodeFamilyE w = .known i → i.row.Spells w := by
  unfold decodeFamilyE
  iterate 2 refine spells_of_ite (fun hkk => (spells_F0FF_iff (by rfl)).mpr ⟨ho, hkk⟩) ?_
  exact nofun

theorem spells_of_decodeFamilyF (ho : opField w = 0xF) : decodeFamilyF w = .known i → i.row.Spells w := by
  unfold decodeFamilyF
  iterate 9 refine spells_of_ite (fun hkk => (spells_F0FF_iff (by rfl)).mpr ⟨ho, hkk⟩) ?_
  exact nofun

/-- R74, R76: a word that decodes to an instruction spells the instruction's row. -/
theorem spells_of_decodeWord (h : decodeWord w = .known i) : i.row.Spells w := by
  rcases nibble_cases (opField w) with ho | ho | ho | ho | ho | ho | ho | ho | ho | ho | ho | ho | ho | ho | ho | ho
  · exact spells_of_decodeFamily0 (decodeWord_op0 ho ▸ h)
  · cases (decodeWord_op1 ho).symm.trans h; exact (spells_F000_iff (by rfl)).mpr ho
  · cases (decodeWord_op2 ho).symm.trans h; exact (spells_F000_iff (by rfl)).mpr ho
  · cases (decodeWord_op3 ho).symm.trans h; exact (spells_F000_iff (by rfl)).mpr ho
  · cases (decodeWord_op4 ho).symm.trans h; exact (spells_F000_iff (by rfl)).mpr ho
  · exact spells_of_decodeFamily5 ho (decodeWord_op5 ho ▸ h)
  · cases (decodeWord_op6 ho).symm.trans h; exact (spells_F000_iff (by rfl)).mpr ho
  · cases (decodeWord_op7 ho).symm.trans h; exact (spells_F000_iff (by rfl)).mpr ho
  · exact spells_of_decodeFamily8 ho (decodeWord_op8 ho ▸ h)
  · exact spells_of_decodeFamily9 ho (decodeWord_op9 ho ▸ h)
  · cases (decodeWord_opA ho).symm.trans h; exact (spells_F000_iff (by rfl)).mpr ho
  · cases (decodeWord_opB ho).symm.trans h; exact (spells_F000_iff (by rfl)).mpr ho
  · cases (decodeWord_opC ho).symm.trans h; exact (spells_F000_iff (by rfl)).mpr ho
  · cases (decodeWord_opD ho).symm.trans h; exact (spells_F000_iff (by rfl)).mpr ho
  · exact spells_of_decodeFamilyE ho (decodeWord_opE ho ▸ h)
  · exact spells_of_decodeFamilyF ho (decodeWord_opF ho ▸ h)

/-! ## A word that spells a row decodes to an instruction of that row -/

/-- R74, R76: the fields a row's mask keeps lead the two-level dispatch to that row. -/
theorem decodeWord_of_spells (h : i.row.Spells w) : ∃ j, decodeWord w = .known j ∧ j.row = i.row := by
  cases i with
  | cls | ret => rw [spells_FFFF_iff.mp h]; exact ⟨_, rfl, rfl⟩
  | jp _ => exact ⟨_, decodeWord_op1 ((spells_F000_iff (by rfl)).mp h), rfl⟩
  | call _ => exact ⟨_, decodeWord_op2 ((spells_F000_iff (by rfl)).mp h), rfl⟩
  | seImm _ _ => exact ⟨_, decodeWord_op3 ((spells_F000_iff (by rfl)).mp h), rfl⟩
  | sneImm _ _ => exact ⟨_, decodeWord_op4 ((spells_F000_iff (by rfl)).mp h), rfl⟩
  | ldImm _ _ => exact ⟨_, decodeWord_op6 ((spells_F000_iff (by rfl)).mp h), rfl⟩
  | addImm _ _ => exact ⟨_, decodeWord_op7 ((spells_F000_iff (by rfl)).mp h), rfl⟩
  | ldI _ => exact ⟨_, decodeWord_opA ((spells_F000_iff (by rfl)).mp h), rfl⟩
  | jpV0 _ => exact ⟨_, decodeWord_opB ((spells_F000_iff (by rfl)).mp h), rfl⟩
  | rnd _ _ => exact ⟨_, decodeWord_opC ((spells_F000_iff (by rfl)).mp h), rfl⟩
  | drw _ _ _ => exact ⟨_, decodeWord_opD ((spells_F000_iff (by rfl)).mp h), rfl⟩
  | seReg _ _ =>
    obtain ⟨ho, hn⟩ := (spells_F00F_iff (by rfl)).mp h
    simp [decodeWord_op5 ho, decodeFamily5, hn]; rfl
  | sneReg _ _ =>
    obtain ⟨ho, hn⟩ := (spells_F00F_iff (by rfl)).mp h
    simp [decodeWord_op9 ho, decodeFamily9, hn]; rfl
  | ldReg _ _ | orReg _ _ | andReg _ _ | xorReg _ _ | addReg _ _ | subReg _ _ | shr _ _ | subnReg _ _ | shl _ _ =>
    obtain ⟨ho, hn⟩ := (spells_F00F_iff (by rfl)).mp h
    simp [decodeWord_op8 ho, decodeFamily8, hn]; rfl
  | skp _ | sknp _ =>
    obtain ⟨ho, hkk⟩ := (spells_F0FF_iff (by rfl)).mp h
    simp [decodeWord_opE ho, decodeFamilyE, hkk]; rfl
  | ldVxDT _ | ldVxK _ | ldDTVx _ | ldSTVx _ | addI _ | ldF _ | ldB _ | storeRegs _ | loadRegs _ =>
    obtain ⟨ho, hkk⟩ := (spells_F0FF_iff (by rfl)).mp h
    simp [decodeWord_opF ho, decodeFamilyF, hkk]; rfl

/-! ## The rows of the table are the rows of the instructions -/

/-- One instruction of each row, in the table's order. -/
def instrOfEachRow : List Instr :=
  [.cls, .ret, .jp 0, .call 0, .seImm 0 0, .sneImm 0 0, .seReg 0 0, .sneReg 0 0, .ldImm 0 0, .addImm 0 0, .ldReg 0 0,
   .orReg 0 0, .andReg 0 0, .xorReg 0 0, .addReg 0 0, .subReg 0 0, .shr 0 0, .subnReg 0 0, .shl 0 0, .ldI 0, .jpV0 0,
   .rnd 0 0, .drw 0 0 0, .skp 0, .sknp 0, .ldVxDT 0, .ldVxK 0, .ldDTVx 0, .ldSTVx 0, .addI 0, .ldF 0, .ldB 0,
   .storeRegs 0, .loadRegs 0]

theorem opcodeRows_eq_map_row : opcodeRows = instrOfEachRow.map Instr.row := rfl

theorem row_mem_opcodeRows (i : Instr) : i.row ∈ opcodeRows := by
  cases i <;> exact of_decide_eq_true rfl

theorem exists_row_eq {row : OpcodeRow} (h : row ∈ opcodeRows) : ∃ i : Instr, i.row = row := by
  rw [opcodeRows_eq_map_row] at h
  obtain ⟨i, -, rfl⟩ := List.mem_map.mp h
  exact ⟨i, rfl⟩

/-- R74: a word spells a row of the table exactly when it decodes to an instruction of that row. -/
theorem spells_iff_decodeWord {row : OpcodeRow} (hrow : row ∈ opcodeRows) :
    row.Spells w ↔ ∃ i, decodeWord w = .known i ∧ i.row = row := by
  obtain ⟨i, rfl⟩ := exists_row_eq hrow
  refine ⟨decodeWord_of_spells, fun ⟨j, hj, hij⟩ => ?_⟩
  rw [← hij]
  exact spells_of_decodeWord hj

/-- R77: a word is UNKNOWN exactly when it spells no row of the table. -/
theorem decodeWord_unknown_iff : decodeWord w = .unknown w ↔ ∀ row ∈ opcodeRows, ¬row.Spells w := by
  constructor
  · intro unknown row hrow spells
    obtain ⟨i, known, -⟩ := (spells_iff_decodeWord hrow).mp spells
    simp [unknown] at known
  · intro noRow
    cases hd : decodeWord w with
    | known i => exact absurd (spells_of_decodeWord hd) (noRow _ (row_mem_opcodeRows i))
    | unknown u => rw [decodeWord_unknown hd]

/-- Settles O3: the fields each row's mask keeps are the fields the decoder dispatches on. -/
theorem decoderReadsTheOpcodeTable : Obligations.DecoderReadsTheOpcodeTable :=
  ⟨rfl, fun _ => ⟨fun _ hrow => spells_iff_decodeWord hrow, decodeWord_unknown_iff⟩⟩

end Sys2Proof
end

