-- ==== Sys2Proof/Proofs/InstructionFrame.lean ====
section
/-! PROOF. The parts of the state and the bytes of memory an instruction leaves unchanged (30_encoding.md R85). -/

namespace Sys2Proof.Machine

variable {i : Instr} {s t : State} {ps : List Part} {x : Reg}

/-- s with the parts named taken from t. -/
def State.withParts (s : State) (ps : List Part) (t : State) : State where
  mem := if .mem ∈ ps then t.mem else s.mem
  V := if .V ∈ ps then t.V else s.V
  I := if .I ∈ ps then t.I else s.I
  pc := if .pc ∈ ps then t.pc else s.pc
  SP := if .SP ∈ ps then t.SP else s.SP
  stack := if .stack ∈ ps then t.stack else s.stack
  DT := if .DT ∈ ps then t.DT else s.DT
  ST := if .ST ∈ ps then t.ST else s.ST
  fb := if .fb ∈ ps then t.fb else s.fb
  run := if .run ∈ ps then t.run else s.run
  keys := if .keys ∈ ps then t.keys else s.keys
  diag := if .diag ∈ ps then t.diag else s.diag
  randDraws := if .draws ∈ ps then t.randDraws else s.randDraws

/-- A part that is not taken is the same. -/
theorem same_withParts {p : Part} (hp : p ∉ ps) : p.same s (s.withParts ps t) := by
  cases p <;> simp [Part.same, State.withParts, State.reg, State.keyIsDown, hp]

/-- A state that differs from s in the parts named at most leaves every other part unchanged. -/
theorem onlyChanges_of_eq_withParts (h : t = s.withParts ps t) : OnlyChanges ps s t := fun _ hp =>
  h ▸ same_withParts hp

/-- What R85 allows an execution to do to the parts of the state: the precise fault of the instruction's one kind (R202),
or changes of the parts its rule names. -/
def FaultsOrWritesNamed (i : Instr) (s t : State) : Prop :=
  (∃ r, t = haltedAt r s ∧ i.faultKind = some r.kind) ∨ OnlyChanges i.writes s t

/-- R108: a skip changes pc alone. -/
theorem onlyChanges_skipIf (c : Bool) : OnlyChanges [.pc] s (s.skipIf c) := by
  rw [State.skipIf_eq]; exact onlyChanges_of_eq_withParts rfl

/-- R52: a meaning with a range at I takes the range's fault or has its own effect. -/
theorem faultsOrWritesNamed_withRange {base n : Nat} {after : State} (hk : i.faultKind = some .outOfRangeMemory)
    (h : withRange base n s after = .next t) (ha : OnlyChanges i.writes s after) : FaultsOrWritesNamed i s t := by
  obtain ⟨rfl, -⟩ | ⟨rfl, -⟩ := withRange_cases h
  · exact .inr ha
  · exact .inl ⟨_, rfl, hk⟩

/-- R85, R202: everything an execution can do to the parts of the state. -/
theorem exec_faultsOrWritesNamed (h : exec i s = .next t) : FaultsOrWritesNamed i s t := by
  cases i with
  | cls | jp _ | ldI _ | jpV0 _ | ldVxK _ | ldDTVx _ | ldSTVx _ | addI _ | ldF _ =>
    cases h; exact .inr (onlyChanges_of_eq_withParts rfl)
  | ldImm _ _ | addImm _ _ | ldReg _ _ | orReg _ _ | andReg _ _ | xorReg _ _ | rnd _ _ | ldVxDT _ =>
    cases h; exact .inr (onlyChanges_of_eq_withParts rfl)
  | addReg _ _ | subReg _ _ | shr _ _ | subnReg _ _ | shl _ _ =>
    cases h; exact .inr (onlyChanges_of_eq_withParts rfl)
  | seImm _ _ | sneImm _ _ | seReg _ _ | sneReg _ _ => cases h; exact .inr (onlyChanges_skipIf _)
  | ret =>
    obtain ⟨-, rfl⟩ | ⟨-, -, rfl⟩ := execRet_cases h
    · exact .inl ⟨_, rfl, rfl⟩
    · exact .inr (onlyChanges_of_eq_withParts rfl)
  | call nnn =>
    obtain ⟨-, rfl⟩ | ⟨-, rfl⟩ := execCall_cases h
    · exact .inl ⟨_, rfl, rfl⟩
    · exact .inr (onlyChanges_of_eq_withParts rfl)
  | skp x =>
    obtain ⟨-, rfl⟩ | ⟨-, rfl⟩ := execSkp_cases h
    · exact .inl ⟨_, rfl, rfl⟩
    · exact .inr (onlyChanges_skipIf _)
  | sknp x =>
    obtain ⟨-, rfl⟩ | ⟨-, rfl⟩ := execSknp_cases h
    · exact .inl ⟨_, rfl, rfl⟩
    · exact .inr (onlyChanges_skipIf _)
  | drw _ _ _ => exact faultsOrWritesNamed_withRange rfl h (onlyChanges_of_eq_withParts rfl)
  | ldB _ | storeRegs _ => exact faultsOrWritesNamed_withRange rfl h (onlyChanges_setMem _)
  | loadRegs _ =>
    exact faultsOrWritesNamed_withRange rfl h (onlyChanges_of_eq_withParts (setRegBlock_spec _ 0 s).1)

/-! ## The bytes -/

/-- An instruction whose rule names no byte of memory changes none, whether it faults or not. -/
theorem onlyBytes_of_mem_not_named {base n : Nat} (hm : .mem ∉ i.writes) (h : exec i s = .next t) :
    OnlyBytes base n s t := by
  obtain ⟨r, rfl, -⟩ | unchanged := exec_faultsOrWritesNamed h
  · exact fun _ _ => rfl
  · exact fun a _ => unchanged .mem hm a

/-- R202: the fault of a range check writes no byte, so only the meaning's own effect counts. -/
theorem onlyBytes_withRange {base n b m : Nat} {after : State} (h : withRange b m s after = .next t)
    (ha : OnlyBytes base n s after) : OnlyBytes base n s t := by
  obtain ⟨rfl, -⟩ | ⟨rfl, -⟩ := withRange_cases h
  · exact ha
  · exact fun _ _ => rfl

/-- R85: an instruction changes the bytes it stores at I and no other, whether it faults or not. -/
theorem exec_onlyBytes (h : exec i s = .next t) : OnlyBytes s.I.toNat i.storeLength s t := by
  cases i with
  | ldB x => exact onlyBytes_withRange h (onlyBytes_writeBytes s.base (bcdDigits (s.reg x)))
  | storeRegs x =>
    have block := onlyBytes_writeBytes (s := s) s.base (s.regBlock x)
    rw [regBlock_length] at block
    exact onlyBytes_withRange h block
  | _ => exact onlyBytes_of_mem_not_named (by simp [Instr.writes]) h

/-- Settles O44: the parts, the registers and the bytes each have their frame; a fault is its own case. -/
theorem instructionsWriteOnlyWhatTheyName : Obligations.InstructionsWriteOnlyWhatTheyName := fun _ _ _ h =>
  (exec_faultsOrWritesNamed h).imp_right fun parts => ⟨parts, exec_onlyRegs h, exec_onlyBytes h⟩

end Sys2Proof.Machine
end

