-- ==== Sys2Proof/Proofs/StepCycle.lean ====
section
/-! PROOF. What a step is in each sub-state and for each fetched word (30_encoding.md R82, R86, R87). -/

namespace Sys2Proof.Machine

variable {s : State} {w : Word}

/-- R86: a halted core does not step. -/
theorem step_halted {r : FaultRecord} (hr : s.run = .halted r) : step s = .next s := by
  simp [step, stepAction, hr]

/-- R86: a waiting core does not step. -/
theorem step_waitKey {x : Reg} (hr : s.run = .waitKey x) : step s = .next s := by
  simp [step, stepAction, hr]

/-- R82: a step of a running core executes the word it fetched, with pc advanced. -/
theorem step_of_fetch_ok (hr : s.run = .running) (hf : s.fetch = .ok w) : step s = execWord w s.advance := by
  simp only [step, stepAction, cycle, hr, hf]

/-- R82: a word that decodes to an instruction is executed as that instruction. -/
theorem execWord_known {i : Instr} (hd : decodeWord w = .known i) : execWord w s = exec i s := by
  simp only [execWord, hd]

/-- R87: an UNKNOWN word is reported with the address it was fetched from, and passed over. -/
theorem execWord_advance_unknown (hd : decodeWord w = .unknown w) :
    execWord w s.advance = .next (s.advance.emit s.pc w) := by
  simp only [execWord, hd, execUnknown, State.fetchAddr_advance]

/-- R53: two bytes make the word whose number is high byte times 256 plus low byte. -/
theorem joinBytes_eq_of_toNat {hi lo : Byte} (h : w.toNat = hi.toNat * 256 + lo.toNat) : joinBytes hi lo = w :=
  BitVec.eq_of_toNat_eq ((joinBytes_toNat hi lo).trans h.symm)

/-- Settles O6: each sub-state's step, with the fetch inside and outside memory and the two answers of the decoder. -/
theorem stepRunsTheDecodedInstruction : Obligations.StepRunsTheDecodedInstruction := by
  refine fun s => ⟨fun r => step_halted, fun x => step_waitKey, fun hr =>
    ⟨fun hpc => step_of_fetch_error hr (fetch_outside hpc), fun hpc w hw => ?_⟩⟩
  have fetched : s.fetch = .ok w := by rw [fetch_inside hpc, joinBytes_eq_of_toNat hw]
  rw [step_of_fetch_ok hr fetched]
  exact ⟨fun i hd => execWord_known hd, fun hd => execWord_advance_unknown hd⟩

end Sys2Proof.Machine
end

