-- ==== Sys2Proof/Proofs/RuleWords.lean ====
section
/-! PROOF. A word written as a rule writes it, `match | x<<8 | …`, decodes to that rule's instruction with those operands
(30_encoding.md R71 to R77). -/

namespace Sys2Proof

variable {op f : BitVec 4}

/-! ## The second level of families 5 and 9 (R76) -/

theorem decodeWord_seReg ⦃w : Word⦄ (ho : opField w = 0x5) (hn : nField w = 0x0) :
    decodeWord w = .known (.seReg (xField w) (yField w)) := by
  rw [decodeWord_op5 ho, decodeFamily5, if_pos hn]

theorem decodeWord_sneReg ⦃w : Word⦄ (ho : opField w = 0x9) (hn : nField w = 0x0) :
    decodeWord w = .known (.sneReg (xField w) (yField w)) := by
  rw [decodeWord_op9 ho, decodeFamily9, if_pos hn]

theorem decodeWord_op5_unknown ⦃w : Word⦄ (ho : opField w = 0x5) (hn : nField w ≠ 0x0) :
    decodeWord w = .unknown w := by
  rw [decodeWord_op5 ho, decodeFamily5, if_neg hn]

theorem decodeWord_op9_unknown ⦃w : Word⦄ (ho : opField w = 0x9) (hn : nField w ≠ 0x0) :
    decodeWord w = .unknown w := by
  rw [decodeWord_op9 ho, decodeFamily9, if_neg hn]

/-! ## The words of each format -/

/-- A rule of format A: nnn is the rule's operand. -/
theorem decodeWord_wordA {rule : BitVec 12 → Instr}
    (dispatch : ∀ ⦃w⦄, opField w = op → decodeWord w = .known (rule (nnnField w))) (nnn : BitVec 12) :
    decodeWord (wordA (op ++ 0#12) nnn) = .known (rule nnn) := by
  rw [wordA_eq, dispatch (opField_formatA op nnn), nnnField_formatA]

/-- A rule of format XK: x and kk are the rule's operands. -/
theorem decodeWord_wordXK {rule : Reg → Byte → Instr}
    (dispatch : ∀ ⦃w⦄, opField w = op → decodeWord w = .known (rule (xField w) (kkField w))) (x : Reg) (kk : Byte) :
    decodeWord (wordXK (op ++ 0#12) x kk) = .known (rule x kk) := by
  rw [wordXK_eq, dispatch (opField_formatXK op x kk), xField_formatXK, kkField_formatXK]

/-- A rule of format XY with function nibble f: x and y are the rule's operands. -/
theorem decodeWord_wordXY {rule : Reg → Reg → Instr}
    (dispatch : ∀ ⦃w⦄, opField w = op → nField w = f → decodeWord w = .known (rule (xField w) (yField w))) (x y : Reg) :
    decodeWord (wordXY (op ++ 0#8 ++ f) x y) = .known (rule x y) := by
  rw [wordXY_eq, dispatch (opField_formatXYN op x y f) (nField_formatXYN op x y f), xField_formatXYN, yField_formatXYN]

/-- A family that takes function nibble 0 only: with another one the word is UNKNOWN (R77). -/
theorem decodeWord_wordXYN_unknown {x y : Reg} {n : Fin 16}
    (dispatch : ∀ ⦃w⦄, opField w = op → nField w ≠ 0x0 → decodeWord w = .unknown w) (hn : n ≠ 0) :
    decodeWord (wordXYN (op ++ 0#12) x y n) = .unknown (wordXYN (op ++ 0#12) x y n) := by
  rw [wordXYN_eq]
  refine dispatch (opField_formatXYN _ _ _ _) ?_
  rw [nField_formatXYN]
  exact fun h => hn (congrArg BitVec.toFin h)

end Sys2Proof
end

