-- ==== Sys2Proof/Proofs/ControlFlow.lean ====
section
/-! PROOF. Control transfer: return, jumps, call and skips (40_flow.md R100 to R107). -/

namespace Sys2Proof.Machine

variable {s : State} {nnn : BitVec 12} {j : Fin 16}

/-- Setting pc changes pc alone. -/
theorem onlyChanges_setPc (w : Word) : OnlyChanges [.pc] s (s.setPc w) := onlyChanges_of_eq_withParts rfl

/-! ## Jumps -/

/-- R73: zero extension keeps the address. -/
theorem addrOperand_toNat (nnn : BitVec 12) : (addrOperand nnn).toNat = nnn.toNat :=
  BitVec.toNat_setWidth_of_le (by decide)

/-- R103: 16 bits hold the sum of a 12-bit address and a register. -/
theorem addrOperand_add_toNat (nnn : BitVec 12) (b : Byte) :
    (addrOperand nnn + b.zeroExtend 16).toNat = nnn.toNat + b.toNat := by
  have hb : (b.zeroExtend 16).toNat = b.toNat := BitVec.toNat_setWidth_of_le (by decide)
  rw [BitVec.toNat_add, addrOperand_toNat, hb]
  omega

/-- Settles O12: format A with opcode nibble 1, and the zero-extended address. -/
theorem jumpSetsPc : Obligations.JumpSetsPc := fun nnn =>
  ⟨decodeWord_wordA decodeWord_op1 nnn, fun _ => ⟨_, rfl, addrOperand_toNat nnn, onlyChanges_setPc _⟩⟩

/-- Settles O14: format A with opcode nibble B, and the exact sum. -/
theorem jumpAddsV0 : Obligations.JumpAddsV0 := fun nnn =>
  ⟨decodeWord_wordA decodeWord_opB nnn, fun s => ⟨_, rfl, addrOperand_add_toNat nnn (s.reg 0), onlyChanges_setPc _⟩⟩

/-! ## Return and call -/

/-- R100: a return from an empty stack. -/
theorem exec_ret_underflow (h : s.SP = 0) : exec .ret s = .next (haltedAt (.stackUnderflow (s.pc - 2) 0) s) := by
  show execRet s = _
  rw [execRet, if_pos h, raise_eq, h, State.fetchAddr]

/-- R100: a return with SP at j takes the entry there, and SP goes down. -/
theorem exec_ret_pop (hj : 0 < j.val) (h : s.SP.toNat = j.val) :
    exec .ret s = .next ((s.setPc s.stack[j]).setSP (s.SP - 1)) := by
  have notEmpty : s.SP ≠ 0 := fun h0 => hj.ne (by rw [← h, h0]; rfl)
  show execRet s = _
  simp only [execRet, if_neg notEmpty, h, dif_pos j.isLt, Fin.getElem_fin]

/-- Settles O11: the two cases of SP, 0 and 1 to 15. -/
theorem returnPopsTheCallStack : Obligations.ReturnPopsTheCallStack := by
  refine ⟨rfl, fun s => ⟨exec_ret_underflow, fun j hj h => ?_⟩⟩
  have down : (s.SP - 1).toNat = j.val - 1 := by bv_omega
  exact ⟨_, exec_ret_pop hj h, rfl, down, onlyChanges_of_eq_withParts rfl⟩

/-- R102: a call on a full stack. -/
theorem exec_call_overflow (h : s.SP = 15) :
    exec (.call nnn) s = .next (haltedAt (.stackOverflow (s.pc - 2) 15) s) := by
  have full : s.SP.toNat = Config.maxSP := by rw [h]; rfl
  show execCall nnn s = _
  rw [execCall, if_pos full, raise_eq, h, State.fetchAddr]

/-- R102: a call that takes SP to j pushes the return address there. -/
theorem exec_call_push (h : s.SP.toNat + 1 = j.val) :
    exec (.call nnn) s = .next (((s.setSP (s.SP + 1)).setStack j s.pc).setPc (addrOperand nnn)) := by
  have notFull : s.SP.toNat ≠ Config.maxSP := by simp only [Config.maxSP]; omega
  show execCall nnn s = _
  simp only [execCall, if_neg notFull, h, dif_pos j.isLt]

/-- Settles O13: the two cases of SP, 15 and 0 to 14; the entries are read after the one push. -/
theorem callPushesTheReturnAddress : Obligations.CallPushesTheReturnAddress := by
  refine fun nnn => ⟨decodeWord_wordA decodeWord_op2 nnn, fun s => ⟨exec_call_overflow, fun j h => ?_⟩⟩
  have up : (s.SP + 1).toNat = j.val := by have := j.isLt; bv_omega
  have entry := State.setStack_getElem (s.setSP (s.SP + 1)) j s.pc
  exact ⟨_, exec_call_push h, up, (entry j).trans (if_pos rfl), fun k hk => (entry k).trans (if_neg hk),
    addrOperand_toNat nnn, onlyChanges_of_eq_withParts rfl⟩

/-! ## Skips -/

/-- R108: a skip is 2 more on pc, mod 0x10000. -/
theorem State.skipIf_pc_toNat (c : Bool) :
    (s.skipIf c).pc.toNat = if c then (s.pc.toNat + 2) % 0x10000 else s.pc.toNat := by
  cases c <;> rfl

/-- R104, R106: SE skips when its operands are equal. -/
theorem State.skipIf_beq_pc_toNat (a b : Byte) :
    (s.skipIf (a == b)).pc.toNat = if a = b then (s.pc.toNat + 2) % 0x10000 else s.pc.toNat := by
  simp only [State.skipIf_pc_toNat, beq_iff_eq]

/-- R105, R107: SNE skips when its operands differ. -/
theorem State.skipIf_bne_pc_toNat (a b : Byte) :
    (s.skipIf (a != b)).pc.toNat = if a = b then s.pc.toNat else (s.pc.toNat + 2) % 0x10000 := by
  simp only [State.skipIf_pc_toNat, bne_iff_ne, ite_not]

/-- Settles O15: format XK with opcode nibbles 3 and 4, and the two conditions. -/
theorem skipOnImmediate : Obligations.SkipOnImmediate := fun x kk =>
  ⟨decodeWord_wordXK decodeWord_op3 x kk, decodeWord_wordXK decodeWord_op4 x kk, fun _ =>
    ⟨⟨_, rfl, State.skipIf_beq_pc_toNat _ kk, onlyChanges_skipIf _⟩,
      ⟨_, rfl, State.skipIf_bne_pc_toNat _ kk, onlyChanges_skipIf _⟩⟩⟩

/-- Settles O16: format XY with opcode nibbles 5 and 9, each with function nibble 0 only, and the two conditions. -/
theorem skipOnRegisters : Obligations.SkipOnRegisters := fun x y =>
  ⟨decodeWord_wordXY (op := 0x5) (f := 0x0) decodeWord_seReg x y,
    decodeWord_wordXY (op := 0x9) (f := 0x0) decodeWord_sneReg x y,
    fun _ hn => ⟨decodeWord_wordXYN_unknown (op := 0x5) decodeWord_op5_unknown hn,
      decodeWord_wordXYN_unknown (op := 0x9) decodeWord_op9_unknown hn⟩,
    fun _ => ⟨⟨_, rfl, State.skipIf_beq_pc_toNat _ _, onlyChanges_skipIf _⟩,
      ⟨_, rfl, State.skipIf_bne_pc_toNat _ _, onlyChanges_skipIf _⟩⟩⟩

end Sys2Proof.Machine
end

