-- ==== Sys2Proof/Proofs/Alu.lean ====
section
/-! PROOF. Register loads and the ALU (41_alu.md R120 to R130, R133). -/

namespace Sys2Proof.Machine

variable {s : State} {x : Reg}

/-! ## The second level of family 8 (R76) -/

section
variable {w : Word}

theorem decodeFamily8_ldReg (hn : nField w = 0x0) : decodeFamily8 w = .known (.ldReg (xField w) (yField w)) := by
  simp [decodeFamily8, hn]

theorem decodeFamily8_orReg (hn : nField w = 0x1) : decodeFamily8 w = .known (.orReg (xField w) (yField w)) := by
  simp [decodeFamily8, hn]

theorem decodeFamily8_andReg (hn : nField w = 0x2) : decodeFamily8 w = .known (.andReg (xField w) (yField w)) := by
  simp [decodeFamily8, hn]

theorem decodeFamily8_xorReg (hn : nField w = 0x3) : decodeFamily8 w = .known (.xorReg (xField w) (yField w)) := by
  simp [decodeFamily8, hn]

theorem decodeFamily8_addReg (hn : nField w = 0x4) : decodeFamily8 w = .known (.addReg (xField w) (yField w)) := by
  simp [decodeFamily8, hn]

theorem decodeFamily8_subReg (hn : nField w = 0x5) : decodeFamily8 w = .known (.subReg (xField w) (yField w)) := by
  simp [decodeFamily8, hn]

theorem decodeFamily8_shr (hn : nField w = 0x6) : decodeFamily8 w = .known (.shr (xField w) (yField w)) := by
  simp [decodeFamily8, hn]

theorem decodeFamily8_subnReg (hn : nField w = 0x7) : decodeFamily8 w = .known (.subnReg (xField w) (yField w)) := by
  simp [decodeFamily8, hn]

theorem decodeFamily8_shl (hn : nField w = 0xE) : decodeFamily8 w = .known (.shl (xField w) (yField w)) := by
  simp [decodeFamily8, hn]

end

/-- A rule of family 8 with function nibble f: x and y are the rule's operands. -/
theorem decodeWord_word8XY (f : BitVec 4) {rule : Reg → Reg → Instr}
    (dispatch : ∀ {w}, nField w = f → decodeFamily8 w = .known (rule (xField w) (yField w))) (x y : Reg) :
    decodeWord (wordXY (0x8#4 ++ 0#8 ++ f) x y) = .known (rule x y) :=
  decodeWord_wordXY (fun _ ho hn => (decodeWord_op8 ho).trans (dispatch hn)) x y

/-! ## One register written, no flag -/

/-- Setting a register changes the register file alone. -/
theorem onlyChanges_setReg (b : Byte) : OnlyChanges [.V] s (s.setReg x b) := onlyChanges_of_eq_withParts rfl

theorem State.reg_setReg_self (b : Byte) : (s.setReg x b).reg x = b := by rw [State.reg_setReg, if_pos rfl]

/-- Settles O18: format XK with opcode nibbles 6 and 7, and the one register written. -/
theorem loadAndAddImmediate : Obligations.LoadAndAddImmediate := by
  refine fun x kk => ⟨decodeWord_wordXK decodeWord_op6 x kk, decodeWord_wordXK decodeWord_op7 x kk, fun s =>
    ⟨⟨_, rfl, State.reg_setReg_self _, onlyRegs_setReg _, onlyChanges_setReg _⟩,
      ⟨_, rfl, ?_, onlyRegs_setReg _, onlyChanges_setReg _⟩⟩⟩
  rw [State.reg_setReg_self, addMod_toNat]

/-- Settles O19: family 8 with function nibbles 0 to 3, and the one register written, bit by bit. -/
theorem copyAndBitwise : Obligations.CopyAndBitwise := by
  refine fun x y => ⟨decodeWord_word8XY 0x0 decodeFamily8_ldReg x y, decodeWord_word8XY 0x1 decodeFamily8_orReg x y,
    decodeWord_word8XY 0x2 decodeFamily8_andReg x y, decodeWord_word8XY 0x3 decodeFamily8_xorReg x y, fun s =>
    ⟨⟨_, rfl, State.reg_setReg_self _, onlyRegs_setReg _, onlyChanges_setReg _⟩,
      ⟨_, rfl, fun b _ => ?_, onlyRegs_setReg _, onlyChanges_setReg _⟩,
      ⟨_, rfl, fun b _ => ?_, onlyRegs_setReg _, onlyChanges_setReg _⟩,
      ⟨_, rfl, fun b _ => ?_, onlyRegs_setReg _, onlyChanges_setReg _⟩⟩⟩
  · rw [State.reg_setReg_self, BitVec.getLsbD_or]
  · rw [State.reg_setReg_self, BitVec.getLsbD_and]
  · rw [State.reg_setReg_self, BitVec.getLsbD_xor]

/-! ## A flag and then a register written (R84) -/

/-- The flag and the result are both in the register file. -/
theorem onlyChanges_setFlagThenReg (flag b : Byte) : OnlyChanges [.V] s (s.setFlagThenReg flag x b) :=
  onlyChanges_of_eq_withParts rfl

/-- R84, R133: the result stands in the destination, VF or not. -/
theorem State.reg_setFlagThenReg_self (flag b : Byte) : (s.setFlagThenReg flag x b).reg x = b := by
  rw [State.setFlagThenReg_eq, State.reg_setReg_self]

theorem carryFlag_toNat (a b : Byte) : (carryFlag a b).toNat = if 255 < a.toNat + b.toNat then 1 else 0 := by
  simp [carryFlag]

theorem notBorrowFlag_toNat (a b : Byte) : (notBorrowFlag a b).toNat = if a.toNat > b.toNat then 1 else 0 := by
  simp [notBorrowFlag]

/-- R128: a shift right by one halves. -/
theorem shiftRight_one_toNat (a : Byte) : (a >>> 1).toNat = a.toNat / 2 := by
  rw [BitVec.toNat_ushiftRight, Nat.shiftRight_one]

/-- R130: a shift left by one doubles, mod 256. -/
theorem shiftLeft_one_toNat (a : Byte) : (a <<< 1).toNat = a.toNat * 2 % 256 := by
  rw [BitVec.toNat_shiftLeft, Nat.shiftLeft_eq, pow_one]

/-- R84, R133: an instruction that writes a flag and then x, all it does: x holds the result, VF the flag when x is not
VF, and nothing else changes. -/
theorem exec_spec_of_setFlagThenReg {i : Instr} {flag b : Byte} {Result Flag : Byte → Prop}
    (h : exec i s = .next (s.setFlagThenReg flag x b)) (result : Result b) (flagged : Flag flag) :
    ∃ t, exec i s = .next t ∧ Result (t.reg x) ∧ (x ≠ VF → Flag (t.reg VF)) ∧
      OnlyRegs [VF, x] s t ∧ OnlyChanges [.V] s t := by
  refine ⟨_, h, ?_, fun hx => ?_, onlyRegs_setFlagThenReg flag b, onlyChanges_setFlagThenReg flag b⟩
  · rwa [State.reg_setFlagThenReg_self]
  · rwa [State.reg_VF_setFlagThenReg hx]

/-- R126: everything 8xy4 does. -/
theorem exec_addReg_spec (x y : Reg) (s : State) : ∃ t, exec (.addReg x y) s = .next t ∧
    (t.reg x).toNat = ((s.reg x).toNat + (s.reg y).toNat) % 256 ∧
      (x ≠ VF → (t.reg VF).toNat = if 255 < (s.reg x).toNat + (s.reg y).toNat then 1 else 0) ∧
        OnlyRegs [VF, x] s t ∧ OnlyChanges [.V] s t :=
  exec_spec_of_setFlagThenReg (Result := fun r => r.toNat = _) (Flag := fun f => f.toNat = _) rfl
    (addMod_toNat _ _) (carryFlag_toNat _ _)

/-- R127: everything 8xy5 does. -/
theorem exec_subReg_spec (x y : Reg) (s : State) : ∃ t, exec (.subReg x y) s = .next t ∧
    ((t.reg x).toNat : Int) = (((s.reg x).toNat : Int) - ((s.reg y).toNat : Int)) % 256 ∧
      (x ≠ VF → (t.reg VF).toNat = if (s.reg x).toNat > (s.reg y).toNat then 1 else 0) ∧
        OnlyRegs [VF, x] s t ∧ OnlyChanges [.V] s t :=
  exec_spec_of_setFlagThenReg (Result := fun r => (r.toNat : Int) = _) (Flag := fun f => f.toNat = _) rfl
    (subMod_toNat _ _) (notBorrowFlag_toNat _ _)

/-- R129: everything 8xy7 does. -/
theorem exec_subnReg_spec (x y : Reg) (s : State) : ∃ t, exec (.subnReg x y) s = .next t ∧
    ((t.reg x).toNat : Int) = (((s.reg y).toNat : Int) - ((s.reg x).toNat : Int)) % 256 ∧
      (x ≠ VF → (t.reg VF).toNat = if (s.reg y).toNat > (s.reg x).toNat then 1 else 0) ∧
        OnlyRegs [VF, x] s t ∧ OnlyChanges [.V] s t :=
  exec_spec_of_setFlagThenReg (Result := fun r => (r.toNat : Int) = _) (Flag := fun f => f.toNat = _) rfl
    (subMod_toNat _ _) (notBorrowFlag_toNat _ _)

/-- R128: everything 8xy6 does. -/
theorem exec_shr_spec (x y : Reg) (s : State) : ∃ t, exec (.shr x y) s = .next t ∧
    (t.reg x).toNat = (s.reg x).toNat / 2 ∧ (x ≠ VF → (t.reg VF).toNat = (s.reg x).toNat % 2) ∧
      OnlyRegs [VF, x] s t ∧ OnlyChanges [.V] s t :=
  exec_spec_of_setFlagThenReg (Result := fun r => r.toNat = _) (Flag := fun f => f.toNat = _) rfl
    (shiftRight_one_toNat _) (shiftedOutLow_toNat _)

/-- R130: everything 8xyE does. -/
theorem exec_shl_spec (x y : Reg) (s : State) : ∃ t, exec (.shl x y) s = .next t ∧
    (t.reg x).toNat = (s.reg x).toNat * 2 % 256 ∧ (x ≠ VF → (t.reg VF).toNat = (s.reg x).toNat / 128) ∧
      OnlyRegs [VF, x] s t ∧ OnlyChanges [.V] s t :=
  exec_spec_of_setFlagThenReg (Result := fun r => r.toNat = _) (Flag := fun f => f.toNat = _) rfl
    (shiftLeft_one_toNat _) (shiftedOutHigh_toNat _)

/-- Settles O20: family 8 with function nibble 4, and the sum and its carry. -/
theorem addSetsCarry : Obligations.AddSetsCarry := fun x y =>
  ⟨decodeWord_word8XY 0x4 decodeFamily8_addReg x y, exec_addReg_spec x y⟩

/-- Settles O21: family 8 with function nibbles 5 and 7, and the two differences. -/
theorem subtractSetsStrictNotBorrow : Obligations.SubtractSetsStrictNotBorrow := fun x y =>
  ⟨decodeWord_word8XY 0x5 decodeFamily8_subReg x y, decodeWord_word8XY 0x7 decodeFamily8_subnReg x y, fun s =>
    ⟨exec_subReg_spec x y s, exec_subnReg_spec x y s⟩⟩

/-- Settles O22: family 8 with function nibbles 6 and E, and the two shifts. -/
theorem shiftsMoveOneBit : Obligations.ShiftsMoveOneBit := fun x y =>
  ⟨decodeWord_word8XY 0x6 decodeFamily8_shr x y, decodeWord_word8XY 0xE decodeFamily8_shl x y, fun s =>
    ⟨exec_shr_spec x y s, exec_shl_spec x y s⟩⟩

/-- Settles O23: what each instruction leaves in its destination, with VF as the destination and then as the source;
the operands are those of the state before in both. -/
theorem resultOverwritesTheFlagInVF : Obligations.ResultOverwritesTheFlagInVF := by
  constructor
  · intro y s
    obtain ⟨t4, add, sum, -⟩ := exec_addReg_spec VF y s
    obtain ⟨t5, sub, diff, -⟩ := exec_subReg_spec VF y s
    obtain ⟨t6, shr, half, -⟩ := exec_shr_spec VF y s
    obtain ⟨t7, subn, diffn, -⟩ := exec_subnReg_spec VF y s
    obtain ⟨tE, shl, double, -⟩ := exec_shl_spec VF y s
    exact ⟨t4, t5, t6, t7, tE, add, sum, sub, diff, shr, half, subn, diffn, shl, double⟩
  · intro x s _
    obtain ⟨t4, add, sum, -⟩ := exec_addReg_spec x VF s
    obtain ⟨t5, sub, diff, -⟩ := exec_subReg_spec x VF s
    obtain ⟨t7, subn, diffn, -⟩ := exec_subnReg_spec x VF s
    exact ⟨t4, t5, t7, add, sum, sub, diff, subn, diffn⟩

end Sys2Proof.Machine
end

