-- ==== Sys2Proof/Proofs/FunctionByteWords.lean ====
section
/-! PROOF. The words of format X, whose low byte is the function: a word written `match | x<<8` decodes to its rule's
instruction with operand x (30_encoding.md R71 to R76). -/

namespace Sys2Proof

/-- A rule of format X with function byte kk: x is the rule's operand. -/
theorem decodeWord_wordX {op : BitVec 4} {kk : Byte} {rule : Reg → Instr}
    (dispatch : ∀ ⦃w⦄, opField w = op → kkField w = kk → decodeWord w = .known (rule (xField w))) (x : Reg) :
    decodeWord (wordX (op ++ 0#4 ++ kk) x) = .known (rule x) := by
  rw [wordX_eq, dispatch (opField_formatXK op x kk) (kkField_formatXK op x kk), xField_formatXK]

/-- A rule of family F with function byte kk: x is the rule's operand. -/
theorem decodeWord_wordFX (kk : Byte) {rule : Reg → Instr}
    (dispatch : ∀ {w}, kkField w = kk → decodeFamilyF w = .known (rule (xField w))) (x : Reg) :
    decodeWord (wordX (0xF#4 ++ 0#4 ++ kk) x) = .known (rule x) :=
  decodeWord_wordX (fun _ ho hkk => (decodeWord_opF ho).trans (dispatch hkk)) x

/-! ## The second level of family F: the index register and the memory transfers (R76) -/

variable {w : Word}

theorem decodeFamilyF_addI (hkk : kkField w = 0x1E) : decodeFamilyF w = .known (.addI (xField w)) := by
  simp [decodeFamilyF, hkk]

theorem decodeFamilyF_ldF (hkk : kkField w = 0x29) : decodeFamilyF w = .known (.ldF (xField w)) := by
  simp [decodeFamilyF, hkk]

theorem decodeFamilyF_ldB (hkk : kkField w = 0x33) : decodeFamilyF w = .known (.ldB (xField w)) := by
  simp [decodeFamilyF, hkk]

theorem decodeFamilyF_storeRegs (hkk : kkField w = 0x55) : decodeFamilyF w = .known (.storeRegs (xField w)) := by
  simp [decodeFamilyF, hkk]

theorem decodeFamilyF_loadRegs (hkk : kkField w = 0x65) : decodeFamilyF w = .known (.loadRegs (xField w)) := by
  simp [decodeFamilyF, hkk]

end Sys2Proof
end

