-- ==== Sys2Proof/Proofs/IndexMemory.lean ====
section
/-! PROOF. The index register and the memory transfers (42_index_memory.md R150 to R155). -/

namespace Sys2Proof.Machine

variable {i : Instr} {s : State} {n : Nat}

/-! ## The index register -/

/-- Setting I changes I alone. -/
theorem onlyChanges_setI (w : Word) : OnlyChanges [.I] s (s.setI w) := onlyChanges_of_eq_withParts rfl

/-- R151: a register is added to I mod 0x10000. -/
theorem add_zeroExtend_toNat (w : Word) (b : Byte) :
    (w + b.zeroExtend 16).toNat = (w.toNat + b.toNat) % 0x10000 := by
  have hb : (b.zeroExtend 16).toNat = b.toNat := BitVec.toNat_setWidth_of_le (by decide)
  rw [BitVec.toNat_add, hb]

/-- R152: 16 bits hold five times a byte, unmasked. -/
theorem ofNat_mul_five_toNat (b : Byte) : (BitVec.ofNat 16 (b.toNat * 5)).toNat = b.toNat * 5 := by
  have := b.isLt
  rw [BitVec.toNat_ofNat]
  omega

/-- Settles O25: format A with opcode nibble A, format X with function bytes 1E and 29, and the three values of I. -/
theorem indexRegisterWrites : Obligations.IndexRegisterWrites :=
  ⟨fun nnn => ⟨decodeWord_wordA decodeWord_opA nnn, fun _ => ⟨_, rfl, addrOperand_toNat nnn, onlyChanges_setI _⟩⟩,
    fun x => ⟨decodeWord_wordFX 0x1E decodeFamilyF_addI x, decodeWord_wordFX 0x29 decodeFamilyF_ldF x, fun s =>
      ⟨⟨_, rfl, add_zeroExtend_toNat s.I (s.reg x), onlyChanges_setI _⟩,
        ⟨_, rfl, ofNat_mul_five_toNat (s.reg x), onlyChanges_setI _⟩⟩⟩⟩

/-! ## Stores at I -/

/-- R52, R55: an instruction that stores a block at I, all it does when the block lies in a canonical memory: each byte
of the block is read back, and nothing else changes. -/
theorem exec_spec_of_block_store {bs : List Byte} (length : bs.length = n)
    (meaning : exec i s = withRange s.base n s (s.setMem (s.mem.writeBytes s.base bs)))
    (hm : s.mem.wf) (fits : s.I.toNat + n ≤ 0x1000) :
    ∃ t, exec i s = .next t ∧ (∀ (k : Nat) (hk : k < bs.length), t.mem.read (s.I.toNat + k) = bs[k]) ∧
      OnlyBytes s.I.toNat n s t ∧ OnlyChanges [.mem] s t := by
  subst length
  exact ⟨_, meaning.trans (withRange_inside (.inr fits)), fun k hk => Memory.read_writeBytes_inside hm.1 hk,
    onlyBytes_writeBytes s.base bs, onlyChanges_setMem _⟩

/-- R153: each digit, by its place. -/
theorem bcdDigits_getElem_toNat (a : Byte) :
    (bcdDigits a)[0].toNat = a.toNat / 100 ∧ (bcdDigits a)[1].toNat = a.toNat / 10 % 10 ∧
      (bcdDigits a)[2].toNat = a.toNat % 10 := by
  have digits := bcdDigits_toNat a
  simp only [bcdDigits, List.map_cons, List.map_nil, List.cons.injEq, and_true] at digits
  exact digits

/-- Settles O26: the range of three bytes, outside memory and inside, and the block of the three digits. -/
theorem decimalDigitsAreStored : Obligations.DecimalDigitsAreStored := by
  refine fun x => ⟨decodeWord_wordFX 0x33 decodeFamilyF_ldB x, fun s =>
    ⟨fun h => exec_of_range_outside (i := .ldB x) (Nat.succ_pos 2) (Nat.lt_succ_of_le h), fun hm fits => ?_⟩⟩
  obtain ⟨t, next, stored, bytes, parts⟩ := exec_spec_of_block_store (i := .ldB x) (bcdDigits_length (s.reg x)) rfl hm fits
  obtain ⟨hundreds, tens, ones⟩ := bcdDigits_getElem_toNat (s.reg x)
  have digit (k : Nat) (hk : k < 3) := congrArg BitVec.toNat (stored k hk)
  exact ⟨t, next, (digit 0 (by decide)).trans hundreds, (digit 1 (by decide)).trans tens,
    (digit 2 (by decide)).trans ones, bytes, parts⟩

/-- Settles O27: the range of x + 1 bytes, outside memory and inside, and the block of the registers. -/
theorem registersAreStored : Obligations.RegistersAreStored := by
  refine fun x => ⟨decodeWord_wordFX 0x55 decodeFamilyF_storeRegs x, fun s =>
    ⟨fun h => exec_of_range_outside (i := .storeRegs x) x.val.succ_pos (Nat.lt_succ_of_le h), fun hm fits => ?_⟩⟩
  obtain ⟨t, next, stored, bytes, parts⟩ := exec_spec_of_block_store (i := .storeRegs x) (regBlock_length s x) rfl hm fits
  refine ⟨t, next, fun k hk => ?_, bytes, parts⟩
  have inBlock : k.val < (s.regBlock x).length := (regBlock_length s x).symm ▸ Nat.lt_succ_of_le hk
  rw [stored k.val inBlock, regBlock_getElem s x inBlock k.isLt]

/-! ## Loads from I -/

/-- R155: a block read from memory and loaded into the registers from V0 on, register by register. -/
theorem reg_setRegBlock_readBytes {m : Memory} {base : Nat} (r : Reg) :
    (s.setRegBlock 0 (m.readBytes base n)).reg r = if r.val < n then m.read (base + r.val) else s.reg r := by
  rw [(setRegBlock_spec _ 0 s).2 r]
  simp

/-- Settles O28: the range of x + 1 bytes, outside memory and inside, and the registers up to x and above it. -/
theorem registersAreLoaded : Obligations.RegistersAreLoaded := fun x =>
  ⟨decodeWord_wordFX 0x65 decodeFamilyF_loadRegs x, fun s =>
    ⟨fun h => exec_of_range_outside (i := .loadRegs x) x.val.succ_pos (Nat.lt_succ_of_le h), fun fits =>
      ⟨_, withRange_inside (.inr fits),
        fun k hk => (reg_setRegBlock_readBytes k).trans (if_pos (Nat.lt_succ_of_le hk)),
        fun k hk => (reg_setRegBlock_readBytes k).trans (if_neg (Nat.not_lt_of_le hk)),
        onlyChanges_of_eq_withParts (setRegBlock_spec _ 0 s).1⟩⟩⟩

end Sys2Proof.Machine
end

