-- ==== Sys2Proof/Proofs/Display.lean ====
section
/-! PROOF. The display instructions: clear and draw (43_display.md R167 to R169). -/

namespace Sys2Proof.Machine

variable {s : State} {x y : Reg} {n : Fin 16}

/-- Settles O31: the framebuffer is replaced by the cleared one. -/
theorem clearTurnsEveryPixelOff : Obligations.ClearTurnsEveryPixelOff :=
  ⟨rfl, fun _ => ⟨_, rfl, Framebuffer.pix_clear, onlyChanges_of_eq_withParts rfl⟩⟩

/-- A rule of format XYN: x, y and n are the rule's operands (30_encoding.md R71 to R74). -/
theorem decodeWord_wordXYN {op : BitVec 4} {rule : Reg → Reg → Fin 16 → Instr}
    (dispatch : ∀ ⦃w⦄, opField w = op → decodeWord w = .known (rule (xField w) (yField w) (nField w).toFin))
    (x y : Reg) (n : Fin 16) : decodeWord (wordXYN (op ++ 0#12) x y n) = .known (rule x y n) := by
  rw [wordXYN_eq, dispatch (opField_formatXYN op x y _), xField_formatXYN, yField_formatXYN, nField_formatXYN]

/-- R169: the rows of a sprite are the n bytes at I, ascending. -/
theorem State.spriteRows_getElem? {r : Nat} (hr : r < n.val) :
    (s.spriteRows n)[r]? = some (s.mem.read (s.I.toNat + r)) := by
  have inRows : r < (s.spriteRows n).length := by rwa [State.spriteRows, Memory.readBytes_length]
  rw [List.getElem?_eq_getElem inRows]
  exact congrArg some (Memory.readBytes_getElem inRows)

/-- R169: with n = 0 there are no rows. -/
theorem State.spriteRows_eq_nil (hn : n.val = 0) : s.spriteRows n = [] :=
  List.length_eq_zero_iff.mp ((Memory.readBytes_length _ _).trans hn)

/-- s with a drawing put in place: its framebuffer, and its collision in VF (R169). -/
def State.setDrawn (s : State) (drawn : Bool × Framebuffer) : State := (s.setFb drawn.2).setReg VF (flagOf drawn.1)

/-- R169: a draw whose rows lie in memory puts the drawing of its rows in place. -/
theorem exec_drw_inside (hn : n.val = 0 ∨ s.I.toNat + n.val ≤ 0x1000) : exec (.drw x y n) s =
    .next (s.setDrawn (drawSprite (s.reg x).toNat (s.reg y).toNat (s.spriteRows n) s.fb)) :=
  withRange_inside hn

theorem State.reg_VF_setDrawn (drawn : Bool × Framebuffer) : (s.setDrawn drawn).reg VF = flagOf drawn.1 :=
  State.reg_setReg_self _

theorem onlyRegs_setDrawn (drawn : Bool × Framebuffer) : OnlyRegs [VF] s (s.setDrawn drawn) :=
  onlyRegs_setReg (s := s.setFb _) _

theorem onlyChanges_setDrawn (drawn : Bool × Framebuffer) : OnlyChanges [.fb, .V] s (s.setDrawn drawn) :=
  onlyChanges_of_eq_withParts rfl

/-- Settles O32: format XYN with opcode nibble D, the range of n bytes, outside memory and inside, and the drawing of
the rows; with no rows the drawing is the framebuffer itself, without a collision. -/
theorem drawSetsCollision : Obligations.DrawSetsCollision := by
  refine fun x y n => ⟨decodeWord_wordXYN decodeWord_opD x y n, fun s => ⟨fun hn outside => ?_, fun inside => ?_⟩⟩
  · exact exec_of_range_outside (i := .drw x y n) hn (show 0x1000 < s.I.toNat + n.val by omega)
  · refine ⟨_, s.spriteRows n, exec_drw_inside (by omega), Memory.readBytes_length _ _,
      fun r => State.spriteRows_getElem?, rfl, ?_, fun hn => ?_, onlyRegs_setDrawn _, onlyChanges_setDrawn _⟩
    · rw [State.reg_VF_setDrawn, flagOf_toNat]
    · rw [State.spriteRows_eq_nil hn, drawSprite_nil]
      exact ⟨rfl, State.reg_VF_setDrawn _⟩

end Sys2Proof.Machine
end

