-- ==== Sys2Proof/Proofs/KeysTimers.lean ====
section
/-! PROOF. Key input and timer instructions (44_timers_input.md R180 to R185). -/

namespace Sys2Proof.Machine

variable {s : State} {x : Reg} {k : Key}

/-! ## The second level of families E and F: keys and timers (R76) -/

section
variable ⦃w : Word⦄

theorem decodeWord_skp (ho : opField w = 0xE) (hkk : kkField w = 0x9E) : decodeWord w = .known (.skp (xField w)) := by
  rw [decodeWord_opE ho, decodeFamilyE, if_pos hkk]

theorem decodeWord_sknp (ho : opField w = 0xE) (hkk : kkField w = 0xA1) :
    decodeWord w = .known (.sknp (xField w)) := by
  have notSkp : kkField w ≠ 0x9E := by rw [hkk]; decide
  rw [decodeWord_opE ho, decodeFamilyE, if_neg notSkp, if_pos hkk]

end

section
variable {w : Word}

theorem decodeFamilyF_ldVxDT (hkk : kkField w = 0x07) : decodeFamilyF w = .known (.ldVxDT (xField w)) := by
  simp [decodeFamilyF, hkk]

theorem decodeFamilyF_ldVxK (hkk : kkField w = 0x0A) : decodeFamilyF w = .known (.ldVxK (xField w)) := by
  simp [decodeFamilyF, hkk]

theorem decodeFamilyF_ldDTVx (hkk : kkField w = 0x15) : decodeFamilyF w = .known (.ldDTVx (xField w)) := by
  simp [decodeFamilyF, hkk]

theorem decodeFamilyF_ldSTVx (hkk : kkField w = 0x18) : decodeFamilyF w = .known (.ldSTVx (xField w)) := by
  simp [decodeFamilyF, hkk]

end

/-! ## Skips on a key's level -/

/-- R180: a register that holds the number of key k is the key operand k. -/
theorem keyOperand_eq_some (h : (s.reg x).toNat = k.val) : s.keyOperand x = some k := by
  rw [keyOperand_some (h.trans_lt k.isLt)]
  exact congrArg some (Fin.ext h)

theorem exec_skp_outOfRange (h : 15 < (s.reg x).toNat) :
    exec (.skp x) s = .next (haltedAt (.outOfRangeKey (s.pc - 2) (s.reg x)) s) := by
  show execSkp x s = _
  simp only [execSkp, keyOperand_none h, raise_eq, State.fetchAddr]

theorem exec_sknp_outOfRange (h : 15 < (s.reg x).toNat) :
    exec (.sknp x) s = .next (haltedAt (.outOfRangeKey (s.pc - 2) (s.reg x)) s) := by
  show execSknp x s = _
  simp only [execSknp, keyOperand_none h, raise_eq, State.fetchAddr]

theorem exec_skp_key (h : (s.reg x).toNat = k.val) : exec (.skp x) s = .next (s.skipIf (s.keyIsDown k)) := by
  show execSkp x s = _
  simp only [execSkp, keyOperand_eq_some h]

theorem exec_sknp_key (h : (s.reg x).toNat = k.val) : exec (.sknp x) s = .next (s.skipIf (!s.keyIsDown k)) := by
  show execSknp x s = _
  simp only [execSknp, keyOperand_eq_some h]

/-- R181: SKNP skips when the level is up. -/
theorem State.skipIf_not_pc_toNat (c : Bool) :
    (s.skipIf (!c)).pc.toNat = if c then s.pc.toNat else (s.pc.toNat + 2) % 0x10000 := by
  cases c <;> rfl

/-- Settles O35: format X with opcode nibble E and function bytes 9E and A1, the fault for a register above 15, and the
two conditions on the level of its key. -/
theorem skipOnKeyLevel : Obligations.SkipOnKeyLevel := fun x =>
  ⟨decodeWord_wordX (op := 0xE) (kk := 0x9E) decodeWord_skp x,
    decodeWord_wordX (op := 0xE) (kk := 0xA1) decodeWord_sknp x, fun _ =>
    ⟨fun h => ⟨exec_skp_outOfRange h, exec_sknp_outOfRange h⟩, fun _ h =>
      ⟨⟨_, exec_skp_key h, State.skipIf_pc_toNat _, onlyChanges_skipIf _⟩,
        ⟨_, exec_sknp_key h, State.skipIf_not_pc_toNat _, onlyChanges_skipIf _⟩⟩⟩⟩

/-! ## Timer loads -/

/-- R33: the tone is on exactly when ST is not 0. -/
theorem State.tone_iff : s.tone = true ↔ s.ST ≠ 0 := bne_iff_ne

theorem onlyChanges_setDT (b : Byte) : OnlyChanges [.DT] s (s.setDT b) := onlyChanges_of_eq_withParts rfl

theorem onlyChanges_setST (b : Byte) : OnlyChanges [.ST] s (s.setST b) := onlyChanges_of_eq_withParts rfl

/-- Settles O36: format X with opcode nibble F and function bytes 07, 15 and 18, and the one register or timer
written. -/
theorem timerLoads : Obligations.TimerLoads := fun x =>
  ⟨decodeWord_wordFX 0x07 decodeFamilyF_ldVxDT x, decodeWord_wordFX 0x15 decodeFamilyF_ldDTVx x,
    decodeWord_wordFX 0x18 decodeFamilyF_ldSTVx x, fun s =>
    ⟨⟨_, rfl, State.reg_setReg_self _, onlyRegs_setReg _, onlyChanges_setReg _⟩,
      ⟨_, rfl, rfl, onlyChanges_setDT _⟩,
      ⟨_, rfl, rfl, State.tone_iff (s := s.setST _), onlyChanges_setST _⟩⟩⟩

/-! ## The key wait -/

theorem run_ne_halted_of_waitKey (h : s.run = .waitKey x) (r : FaultRecord) : s.run ≠ .halted r := by
  rw [h]; exact nofun

/-- R183, R208: a Tick counts both timers down and does not end the wait. -/
theorem tick_waitKey_spec (h : s.run = .waitKey x) : (tick s).run = .waitKey x ∧
    (tick s).DT.toNat = s.DT.toNat - 1 ∧ (tick s).ST.toNat = s.ST.toNat - 1 := by
  rw [tick_eq (run_ne_halted_of_waitKey h)]
  exact ⟨h, countDown_toNat s.DT, countDown_toNat s.ST⟩

/-- R183, R210: a KeyUp does not end the wait. -/
theorem keyUp_waitKey_run (h : s.run = .waitKey x) (k : Key) : (keyUp k s).run = .waitKey x := by
  rw [keyUp_eq (run_ne_halted_of_waitKey h)]
  exact h

/-- A key's number fits a register. -/
theorem ofNat_key_toNat (k : Key) : (BitVec.ofNat 8 k.val).toNat = k.val := by
  rw [BitVec.toNat_ofNat]; omega

/-- R183, R209: a KeyDown ends the wait with the key's number in Vx, and of the levels it sets that key's alone. -/
theorem keyDown_waitKey_spec (h : s.run = .waitKey x) (k : Key) :
    (keyDown k s).run = .running ∧ ((keyDown k s).reg x).toNat = k.val ∧
      OnlyRegs [x] s (keyDown k s) ∧ OnlyChanges [.V, .run, .keys] s (keyDown k s) ∧
        (keyDown k s).keyIsDown k = true ∧ ∀ j : Key, j ≠ k → (keyDown k s).keyIsDown j = s.keyIsDown j := by
  rw [keyDown_waitKey h]
  have level (j : Key) := State.keyIsDown_setKey (s := s) k true j
  refine ⟨rfl, ?_, onlyRegs_setReg (s := s.setKey k true) _, onlyChanges_of_eq_withParts rfl,
    (level k).trans (if_pos rfl), fun j hj => (level j).trans (if_neg hj)⟩
  rw [State.reg_setRun, State.reg_setReg_self, ofNat_key_toNat]

/-- Settles O37: format X with opcode nibble F and function byte 0A, and each action of the host on the waiting core. -/
theorem keyWaitEndsOnKeyDownOnly : Obligations.KeyWaitEndsOnKeyDownOnly := by
  refine fun x => ⟨decodeWord_wordFX 0x0A decodeFamilyF_ldVxK x, fun s => ⟨s.setRun (.waitKey x), rfl, ?_⟩⟩
  have waiting : (s.setRun (.waitKey x)).run = .waitKey x := rfl
  obtain ⟨stillWaiting, dt, st⟩ := tick_waitKey_spec waiting
  exact ⟨waiting, onlyChanges_of_eq_withParts rfl, step_waitKey waiting, stillWaiting, dt, st, fun k =>
    ⟨keyUp_waitKey_run waiting k, keyDown_waitKey_spec waiting k⟩⟩

end Sys2Proof.Machine
end

