-- ==== Sys2Proof/Proofs/Exceptions.lean ====
section
/-! PROOF. A fatal fault from the whole step, and the host's actions in each sub-state (60_exceptions.md R202, R208 to
R210). -/

namespace Sys2Proof.Machine

variable {i : Instr} {s t : State} {r : FaultRecord}

/-! ## Taking a fatal fault (R202) -/

/-- R82: a fetch that faults records the address it fetched from. -/
theorem fetchAddr_of_fetch_error (hf : s.fetch = .error r) : r.fetchAddr = s.pc := by
  rcases Nat.lt_or_ge s.pc.toNat 0xFFF with inside | outside
  · rw [fetch_inside (Nat.le_of_lt_succ inside)] at hf; cases hf
  · rw [fetch_outside outside] at hf; cases hf; rfl

/-- R83, R202: a fault of a handler undoes the generic pc advance. -/
theorem haltedAt_advance (r : FaultRecord) (s : State) : haltedAt r s.advance = { s with run := .halted r } :=
  Host.Outcome.next.inj (raise_advance s r)

/-- R200, R202: an instruction that halts a running core took its own precise fault. -/
theorem exec_halts (hr : s.run = .running) (h : exec i s = .next t) (ht : t.run = .halted r) :
    t = haltedAt r s ∧ CanRaise i s r := by
  obtain kept | ⟨x, -, waits⟩ | ⟨r', rfl, raised⟩ := exec_runOutcome h
  · simp [kept, hr] at ht
  · simp [waits] at ht
  · obtain rfl : r' = r := Run.halted.inj ht
    exact ⟨rfl, raised⟩

/-- R87, R202: a word that halts a running core is an instruction that took its precise fault: the report of an UNKNOWN
word goes on. -/
theorem execWord_halts {w : Word} (hr : s.run = .running) (h : execWord w s = .next t) (ht : t.run = .halted r) :
    t = haltedAt r s ∧ r.fetchAddr = s.fetchAddr := by
  obtain ⟨i, -, hi⟩ | ⟨u, -, rfl⟩ := execWord_cases h
  · obtain ⟨precise, raised⟩ := exec_halts hr hi ht
    exact ⟨precise, raised.fetchAddr⟩
  · simp [hr] at ht

/-- R202: a step that halts a running core changes run alone, and the record holds the address it fetched from. -/
theorem step_halts (hr : s.run = .running) (h : step s = .next t) (ht : t.run = .halted r) :
    t = { s with run := .halted r } ∧ r.fetchAddr = s.pc := by
  obtain ⟨notRunning, -⟩ | ⟨-, ⟨r', hf, rfl⟩ | ⟨w, -, hw⟩⟩ := step_cases h
  · exact absurd hr notRunning
  · obtain rfl : r' = r := Run.halted.inj ht
    exact ⟨rfl, fetchAddr_of_fetch_error hf⟩
  · obtain ⟨precise, addr⟩ := execWord_halts (s := s.advance) hr hw ht
    exact ⟨precise.trans (haltedAt_advance r s), addr.trans s.fetchAddr_advance⟩

/-- R233: a halted run has not ended well. -/
theorem not_endedWell_of_halted (hr : s.run = .halted r) (E : Word) : ¬EndedWell E s := by
  rintro ⟨-, -, running, -⟩
  simp [hr] at running

/-- Settles O8: the fault of a step comes from its fetch or from its instruction's handler, and both are precise; a
halted core ignores each action. -/
theorem fatalFaultIsPreciseAndFinal : Obligations.FatalFaultIsPreciseAndFinal :=
  ⟨fun _ _ _ => step_halts, fun _ _ hr =>
    ⟨step_halted hr, (actions_halted hr 0).1, fun k => (actions_halted hr k).2, not_endedWell_of_halted hr⟩⟩

/-! ## Tick (R208) -/

/-- R33: the tone is off exactly when ST is 0. -/
theorem State.tone_eq_false_iff : s.tone = false ↔ s.ST = 0 := bne_eq_false_iff_eq

/-- R33, R208: the Tick that takes ST from 1 to 0 turns the tone off. -/
theorem tone_off_of_tick (h : ∀ r, s.run ≠ .halted r) (hST : s.ST = 1) :
    s.tone = true ∧ (tick s).tone = false := by
  rw [State.tone_iff, State.tone_eq_false_iff, tick_eq h, State.setST_ST, hST]
  decide

/-- Settles O38: both timers count down, and the frame is that of the two timers. -/
theorem tickCountsDown : Obligations.TickCountsDown := by
  refine fun s => ⟨fun r hr => (actions_halted hr 0).1, fun h => ⟨?_, ?_, tone_off_of_tick h, ?_⟩⟩
  all_goals rw [tick_eq h]
  · exact countDown_toNat s.DT
  · exact countDown_toNat s.ST
  · exact onlyChanges_of_eq_withParts rfl

/-! ## KeyDown and KeyUp (R209, R210) -/

theorem onlyChanges_setKey (k : Key) (down : Bool) : OnlyChanges [.keys] s (s.setKey k down) :=
  onlyChanges_of_eq_withParts rfl

/-- R207: setting a level sets the level of k and no other. -/
theorem setKey_levels (k : Key) (down : Bool) : (s.setKey k down).keyIsDown k = down ∧
    ∀ j : Key, j ≠ k → (s.setKey k down).keyIsDown j = s.keyIsDown j := by
  constructor
  · rw [State.keyIsDown_setKey, if_pos rfl]
  · intro j hj
    rw [State.keyIsDown_setKey, if_neg hj]

/-- R209: outside Halted, a KeyDown leaves the levels that setting k's level leaves, whether it ends a wait or not. -/
theorem keyIsDown_keyDown (h : ∀ r, s.run ≠ .halted r) (k j : Key) :
    (keyDown k s).keyIsDown j = (s.setKey k true).keyIsDown j := by
  cases hr : s.run with
  | running => rw [keyDown_running hr]
  | waitKey x => rw [keyDown_waitKey hr]; rfl
  | halted r => exact absurd hr (h r)

/-- Settles O39: the levels are those of `setKey` outside Halted; in WaitKey(x) a KeyDown also ends the wait. -/
theorem keyActions : Obligations.KeyActions := by
  refine fun k s => ⟨fun r hr => (actions_halted hr k).2, fun h => ?_, fun hr => ?_, fun x hr => ?_⟩
  · simp only [keyIsDown_keyDown h, keyUp_eq h]
    obtain ⟨pressed, othersOnPress⟩ := setKey_levels (s := s) k true
    obtain ⟨released, othersOnRelease⟩ := setKey_levels (s := s) k false
    exact ⟨pressed, othersOnPress, released, othersOnRelease, onlyChanges_setKey k false⟩
  · rw [keyDown_running hr]
    exact onlyChanges_setKey k true
  · obtain ⟨resumes, stored, regs, -⟩ := keyDown_waitKey_spec hr k
    refine ⟨stored, resumes, regs, ?_⟩
    rw [keyDown_waitKey hr]
    exact onlyChanges_of_eq_withParts rfl

end Sys2Proof.Machine
end

