-- ==== Sys2Proof/Proofs/RoundTrip.lean ====
section
/-! PROOF. Encoding and decoding undo each other, and the words that spell no instruction (30_encoding.md R70 to R77):
decoding an encoded instruction gives it back with its operands, a word that decodes to an instruction is put together
again from its fields, and the UNKNOWN words are those that fail every test of their family. -/

namespace Sys2Proof

/-! ## The encoder's formats decode to their rules' instructions -/

section
variable {op : BitVec 4}

/-- A rule of format A: nnn is the rule's operand. -/
theorem decodeWord_formatA {rule : BitVec 12 → Instr}
    (dispatch : ∀ ⦃w⦄, opField w = op → decodeWord w = .known (rule (nnnField w))) (nnn : BitVec 12) :
    decodeWord (formatA op nnn) = .known (rule nnn) := by
  rw [dispatch (opField_formatA op nnn), nnnField_formatA]

/-- A rule of format XK: x and kk are the rule's operands. -/
theorem decodeWord_formatXK {rule : Reg → Byte → Instr}
    (dispatch : ∀ ⦃w⦄, opField w = op → decodeWord w = .known (rule (xField w) (kkField w))) (x : Reg) (kk : Byte) :
    decodeWord (formatXK op x kk) = .known (rule x kk) := by
  rw [dispatch (opField_formatXK op x kk), xField_formatXK, kkField_formatXK]

/-- A rule of format X with function byte kk: x is the rule's operand. -/
theorem decodeWord_formatX {kk : Byte} {rule : Reg → Instr}
    (dispatch : ∀ ⦃w⦄, opField w = op → kkField w = kk → decodeWord w = .known (rule (xField w))) (x : Reg) :
    decodeWord (formatXK op x kk) = .known (rule x) := by
  rw [dispatch (opField_formatXK op x kk) (kkField_formatXK op x kk), xField_formatXK]

/-- A rule of format XY with function nibble f: x and y are the rule's operands. -/
theorem decodeWord_formatXY {f : BitVec 4} {rule : Reg → Reg → Instr}
    (dispatch : ∀ ⦃w⦄, opField w = op → nField w = f → decodeWord w = .known (rule (xField w) (yField w))) (x y : Reg) :
    decodeWord (formatXYN op x y f) = .known (rule x y) := by
  rw [dispatch (opField_formatXYN op x y f) (nField_formatXYN op x y f), xField_formatXYN, yField_formatXYN]

/-- A rule of format XYN: x, y and n are the rule's operands. -/
theorem decodeWord_formatXYN {rule : Reg → Reg → Fin 16 → Instr}
    (dispatch : ∀ ⦃w⦄, opField w = op → decodeWord w = .known (rule (xField w) (yField w) (nField w).toFin))
    (x y : Reg) (n : Fin 16) : decodeWord (formatXYN op x y (BitVec.ofFin n)) = .known (rule x y n) := by
  rw [dispatch (opField_formatXYN op x y _), xField_formatXYN, yField_formatXYN, nField_formatXYN]

end

/-- A rule of family 8 with function nibble f. -/
theorem decodeWord_format8XY {f : BitVec 4} {rule : Reg → Reg → Instr}
    (dispatch : ∀ {w}, nField w = f → decodeFamily8 w = .known (rule (xField w) (yField w))) (x y : Reg) :
    decodeWord (formatXYN 0x8 x y f) = .known (rule x y) :=
  decodeWord_formatXY (fun _ ho hn => (decodeWord_op8 ho).trans (dispatch hn)) x y

/-- A rule of family F with function byte kk. -/
theorem decodeWord_formatFX {kk : Byte} {rule : Reg → Instr}
    (dispatch : ∀ {w}, kkField w = kk → decodeFamilyF w = .known (rule (xField w))) (x : Reg) :
    decodeWord (formatXK 0xF x kk) = .known (rule x) :=
  decodeWord_formatX (fun _ ho hkk => (decodeWord_opF ho).trans (dispatch hkk)) x

/-! ## Decoding after encoding -/

/-- R74, R76: the word of an instruction decodes to it, with every operand. -/
theorem decodeWord_encode (i : Instr) : decodeWord (encode i) = .known i := by
  cases i with
  | cls | ret => rfl
  | jp nnn => exact decodeWord_formatA decodeWord_op1 nnn
  | call nnn => exact decodeWord_formatA decodeWord_op2 nnn
  | ldI nnn => exact decodeWord_formatA decodeWord_opA nnn
  | jpV0 nnn => exact decodeWord_formatA decodeWord_opB nnn
  | seImm x kk => exact decodeWord_formatXK decodeWord_op3 x kk
  | sneImm x kk => exact decodeWord_formatXK decodeWord_op4 x kk
  | ldImm x kk => exact decodeWord_formatXK decodeWord_op6 x kk
  | addImm x kk => exact decodeWord_formatXK decodeWord_op7 x kk
  | rnd x kk => exact decodeWord_formatXK decodeWord_opC x kk
  | drw x y n => exact decodeWord_formatXYN decodeWord_opD x y n
  | seReg x y => exact decodeWord_formatXY decodeWord_seReg x y
  | sneReg x y => exact decodeWord_formatXY decodeWord_sneReg x y
  | ldReg x y => exact decodeWord_format8XY Machine.decodeFamily8_ldReg x y
  | orReg x y => exact decodeWord_format8XY Machine.decodeFamily8_orReg x y
  | andReg x y => exact decodeWord_format8XY Machine.decodeFamily8_andReg x y
  | xorReg x y => exact decodeWord_format8XY Machine.decodeFamily8_xorReg x y
  | addReg x y => exact decodeWord_format8XY Machine.decodeFamily8_addReg x y
  | subReg x y => exact decodeWord_format8XY Machine.decodeFamily8_subReg x y
  | shr x y => exact decodeWord_format8XY Machine.decodeFamily8_shr x y
  | subnReg x y => exact decodeWord_format8XY Machine.decodeFamily8_subnReg x y
  | shl x y => exact decodeWord_format8XY Machine.decodeFamily8_shl x y
  | skp x => exact decodeWord_formatX Machine.decodeWord_skp x
  | sknp x => exact decodeWord_formatX Machine.decodeWord_sknp x
  | ldVxDT x => exact decodeWord_formatFX Machine.decodeFamilyF_ldVxDT x
  | ldVxK x => exact decodeWord_formatFX Machine.decodeFamilyF_ldVxK x
  | ldDTVx x => exact decodeWord_formatFX Machine.decodeFamilyF_ldDTVx x
  | ldSTVx x => exact decodeWord_formatFX Machine.decodeFamilyF_ldSTVx x
  | addI x => exact decodeWord_formatFX decodeFamilyF_addI x
  | ldF x => exact decodeWord_formatFX decodeFamilyF_ldF x
  | ldB x => exact decodeWord_formatFX decodeFamilyF_ldB x
  | storeRegs x => exact decodeWord_formatFX decodeFamilyF_storeRegs x
  | loadRegs x => exact decodeWord_formatFX decodeFamilyF_loadRegs x

/-- R53, R70: bytes whose first two are the word of an instruction, high byte first, decode to it. -/
theorem decode_of_known {w : Word} {i : Instr} (h : decodeWord w = .known i) (rest : List Byte) :
    decode (hiByte w :: loByte w :: rest) = .ok (i, rest) := by
  simp only [decode, joinBytes_hi_lo, h]

/-- Settles O1: the two bytes join to the instruction's word, which decodes to it, format by format. -/
theorem decodeOfEncodeIsTheInstruction : Obligations.DecodeOfEncodeIsTheInstruction := fun i rest _ =>
  decode_of_known (decodeWord_encode i) rest

/-! ## Encoding after decoding -/

section
variable {w : Word} {i : Instr}

/-- A word of format A is its opcode nibble and its address. -/
theorem formatA_of_op {op : BitVec 4} (ho : opField w = op) : formatA op (nnnField w) = w := ho ▸ formatA_fields w

/-- A word of format XK is its opcode nibble, its register and its byte. -/
theorem formatXK_of_op {op : BitVec 4} (ho : opField w = op) : formatXK op (xField w) (kkField w) = w :=
  ho ▸ formatXK_fields w

/-- A word of format X is its opcode nibble, its register and its function byte. -/
theorem formatX_of_op {op : BitVec 4} {kk : Byte} (ho : opField w = op) (hkk : kkField w = kk) :
    formatXK op (xField w) kk = w := hkk ▸ formatXK_of_op ho

/-- A word of format XYN is its opcode nibble, its registers and its last nibble. -/
theorem formatXYN_of_op {op : BitVec 4} (ho : opField w = op) :
    formatXYN op (xField w) (yField w) (nField w) = w := ho ▸ formatXYN_fields w

/-- A word of format XY is its opcode nibble, its registers and its function nibble. -/
theorem formatXY_of_op {op f : BitVec 4} (ho : opField w = op) (hn : nField w = f) :
    formatXYN op (xField w) (yField w) f = w := hn ▸ formatXYN_of_op ho

/-- One test of the dispatch: the instruction it yields encodes to w if the test's field makes it do so. -/
theorem encode_of_ite {c : Prop} [Decidable c] {a : Instr} {d : Decoded} (yes : c → encode a = w)
    (no : d = .known i → encode i = w) : (if c then .known a else d) = .known i → encode i = w := by
  intro h
  split at h
  · next hc => exact Decoded.known.inj h ▸ yes hc
  · exact no h

theorem encode_of_decodeFamily0 : decodeFamily0 w = .known i → encode i = w := by
  unfold decodeFamily0
  iterate 2 refine encode_of_ite Eq.symm ?_
  exact nofun

theorem encode_of_decodeFamily5 (ho : opField w = 0x5) : decodeFamily5 w = .known i → encode i = w :=
  encode_of_ite (formatXY_of_op ho) nofun

theorem encode_of_decodeFamily8 (ho : opField w = 0x8) : decodeFamily8 w = .known i → encode i = w := by
  unfold decodeFamily8
  iterate 9 refine encode_of_ite (formatXY_of_op ho) ?_
  exact nofun

theorem encode_of_decodeFamily9 (ho : opField w = 0x9) : decodeFamily9 w = .known i → encode i = w :=
  encode_of_ite (formatXY_of_op ho) nofun

theorem encode_of_decodeFamilyE (ho : opField w = 0xE) : decodeFamilyE w = .known i → encode i = w := by
  unfold decodeFamilyE
  iterate 2 refine encode_of_ite (formatX_of_op ho) ?_
  exact nofun

theorem encode_of_decodeFamilyF (ho : opField w = 0xF) : decodeFamilyF w = .known i → encode i = w := by
  unfold decodeFamilyF
  iterate 9 refine encode_of_ite (formatX_of_op ho) ?_
  exact nofun

/-- Settles O2: in each family the word is put together again from its opcode nibble and the fields that its
instruction keeps or that the dispatch has tested. -/
theorem encodeOfDecodeIsTheWord : Obligations.EncodeOfDecodeIsTheWord := by
  intro w i h
  rcases nibble_cases (opField w) with ho | ho | ho | ho | ho | ho | ho | ho | ho | ho | ho | ho | ho | ho | ho | ho
  · exact encode_of_decodeFamily0 (decodeWord_op0 ho ▸ h)
  · cases (decodeWord_op1 ho).symm.trans h; exact formatA_of_op ho
  · cases (decodeWord_op2 ho).symm.trans h; exact formatA_of_op ho
  · cases (decodeWord_op3 ho).symm.trans h; exact formatXK_of_op ho
  · cases (decodeWord_op4 ho).symm.trans h; exact formatXK_of_op ho
  · exact encode_of_decodeFamily5 ho (decodeWord_op5 ho ▸ h)
  · cases (decodeWord_op6 ho).symm.trans h; exact formatXK_of_op ho
  · cases (decodeWord_op7 ho).symm.trans h; exact formatXK_of_op ho
  · exact encode_of_decodeFamily8 ho (decodeWord_op8 ho ▸ h)
  · exact encode_of_decodeFamily9 ho (decodeWord_op9 ho ▸ h)
  · cases (decodeWord_opA ho).symm.trans h; exact formatA_of_op ho
  · cases (decodeWord_opB ho).symm.trans h; exact formatA_of_op ho
  · cases (decodeWord_opC ho).symm.trans h; exact formatXK_of_op ho
  · cases (decodeWord_opD ho).symm.trans h; exact formatXYN_of_op ho
  · exact encode_of_decodeFamilyE ho (decodeWord_opE ho ▸ h)
  · exact encode_of_decodeFamilyF ho (decodeWord_opF ho ▸ h)

end

/-! ## The UNKNOWN words, family by family (R77) -/

section
variable {w : Word}

/-- The decoder answers UNKNOWN. -/
def Decoded.IsUnknown (d : Decoded) : Prop := ∃ u, d = .unknown u

@[simp] theorem Decoded.isUnknown_unknown (u : Word) : (Decoded.unknown u).IsUnknown := ⟨u, rfl⟩

@[simp] theorem Decoded.not_isUnknown_known (i : Instr) : ¬(Decoded.known i).IsUnknown := nofun

/-- One test of the dispatch: UNKNOWN is left to the words that fail it. -/
@[simp] theorem Decoded.isUnknown_ite {c : Prop} [Decidable c] {i : Instr} {d : Decoded} :
    (if c then Decoded.known i else d).IsUnknown ↔ ¬c ∧ d.IsUnknown := by
  split <;> simp [*]

/-! ### The fields the dispatch tests, as numbers -/

theorem nField_eq_iff (f : BitVec 4) : nField w = f ↔ w.toNat % 16 = f.toNat := by
  rw [← nField_toNat, BitVec.toNat_inj]

theorem kkField_eq_iff (f : BitVec 8) : kkField w = f ↔ w.toNat % 256 = f.toNat := by
  rw [← kkField_toNat, BitVec.toNat_inj]

/-! ### Each family's second level -/

theorem isUnknown_decodeFamily0 : (decodeFamily0 w).IsUnknown ↔ w ≠ 0x00E0 ∧ w ≠ 0x00EE := by
  simp [decodeFamily0]

theorem isUnknown_decodeFamily5 : (decodeFamily5 w).IsUnknown ↔ w.toNat % 16 ≠ 0 := by
  simp [decodeFamily5, nField_eq_iff]

theorem isUnknown_decodeFamily9 : (decodeFamily9 w).IsUnknown ↔ w.toNat % 16 ≠ 0 := by
  simp [decodeFamily9, nField_eq_iff]

theorem isUnknown_decodeFamily8 :
    (decodeFamily8 w).IsUnknown ↔ w.toNat % 16 ∈ [0x8, 0x9, 0xA, 0xB, 0xC, 0xD, 0xF] := by
  simp only [decodeFamily8, Decoded.isUnknown_ite, Decoded.isUnknown_unknown, nField_eq_iff, BitVec.reduceToNat,
    List.mem_cons, List.not_mem_nil, and_true, or_false]
  omega

theorem isUnknown_decodeFamilyE : (decodeFamilyE w).IsUnknown ↔ w.toNat % 256 ∉ [0x9E, 0xA1] := by
  simp [decodeFamilyE, kkField_eq_iff]

theorem isUnknown_decodeFamilyF : (decodeFamilyF w).IsUnknown ↔
    w.toNat % 256 ∉ [0x07, 0x0A, 0x15, 0x18, 0x1E, 0x29, 0x33, 0x55, 0x65] := by
  simp [decodeFamilyF, kkField_eq_iff]

/-- Settles O4: in each of the sixteen families the opcode nibble leaves one disjunct at most, and that is the family's
second level. -/
theorem unknownWordsAreTheseFamilies : Obligations.UnknownWordsAreTheseFamilies := by
  intro w
  show (decodeWord w).IsUnknown ↔ _
  have op := opField_toNat w
  rcases nibble_cases (opField w) with ho | ho | ho | ho | ho | ho | ho | ho | ho | ho | ho | ho | ho | ho | ho | ho <;>
    simp only [ho, BitVec.reduceToNat] at op <;> simp only [← op]
  · rw [decodeWord_op0 ho, isUnknown_decodeFamily0]; simp
  · simp [decodeWord_op1 ho]
  · simp [decodeWord_op2 ho]
  · simp [decodeWord_op3 ho]
  · simp [decodeWord_op4 ho]
  · rw [decodeWord_op5 ho, isUnknown_decodeFamily5]; simp
  · simp [decodeWord_op6 ho]
  · simp [decodeWord_op7 ho]
  · rw [decodeWord_op8 ho, isUnknown_decodeFamily8]; simp
  · rw [decodeWord_op9 ho, isUnknown_decodeFamily9]; simp
  · simp [decodeWord_opA ho]
  · simp [decodeWord_opB ho]
  · simp [decodeWord_opC ho]
  · simp [decodeWord_opD ho]
  · rw [decodeWord_opE ho, isUnknown_decodeFamilyE]; simp
  · rw [decodeWord_opF ho, isUnknown_decodeFamilyF]; simp

end

/-! ## The spec's examples -/

/-- Settles O5: the decoder is run on each word. -/
theorem writtenOutWordsDecode : Obligations.WrittenOutWordsDecode := by
  unfold Obligations.WrittenOutWordsDecode
  decide

end Sys2Proof
end

