-- ==== Sys2Proof/Proofs/SpriteConsequences.lean ====
section
/-! PROOF. The consequences of draw_sprite: XOR with the mask, and two equal draws (43_display.md R166, R170; log 10). -/

namespace Sys2Proof.Machine

variable {x y : Nat} {rows : List Byte} {fb : Framebuffer}

/-- Settles O33: a sprite of at most 15 rows does not meet itself, so its rows' effects are the mask's. -/
theorem spriteIsXorWithItsMask : Obligations.SpriteIsXorWithItsMask := fun _ _ _ fb hr =>
  drawSprite_spec (hr.trans (by decide)) fb

/-- R170: two equal draws restore the framebuffer. -/
theorem drawSprite_twice_fb (hr : rows.length ≤ 32) : (drawSprite x y rows (drawSprite x y rows fb).2).2 = fb := by
  refine Framebuffer.ext_pix fun px py => Bool.eq_iff_iff.mpr ?_
  rw [(drawSprite_spec hr _).1, (drawSprite_spec hr fb).1]
  tauto

/-- R166: the second of two equal draws collides exactly when some pixel of the mask was off before the first. -/
theorem drawSprite_twice_collision (hr : rows.length ≤ 32) :
    (drawSprite x y rows (drawSprite x y rows fb).2).1 = true ↔ ∃ px py, fb.pix px py = false ∧ maskOn x y rows px py := by
  rw [(drawSprite_spec hr _).2]
  refine exists_congr fun px => exists_congr fun py => and_congr_left fun masked => ?_
  simp [(drawSprite_spec hr fb).1, masked]

/-- A byte other than 0 has a 1 bit. -/
theorem exists_spriteBit_iff (row : Byte) : (∃ b < 8, row.getLsbD (7 - b) = true) ↔ row ≠ 0 := by
  constructor
  · rintro ⟨b, -, bit⟩ rfl
    simp at bit
  · intro notZero
    by_contra none
    refine notZero (BitVec.eq_of_getLsbD_eq fun j hj => ?_)
    have off : ¬row.getLsbD (7 - (7 - j)) = true := fun bit => none ⟨7 - j, by omega, bit⟩
    rw [show 7 - (7 - j) = j by omega] at off
    simpa using off

/-- R170: the mask of a sprite has a pixel exactly when some row is not 0. -/
theorem exists_maskOn_iff : (∃ px py, maskOn x y rows px py) ↔ ∃ row ∈ rows, row ≠ 0 := by
  constructor
  · rintro ⟨px, py, r, b, row, hrow, hb, bit, -, -⟩
    exact ⟨row, List.mem_of_getElem? hrow, (exists_spriteBit_iff row).mp ⟨b, hb, bit⟩⟩
  · rintro ⟨row, hrow, notZero⟩
    obtain ⟨r, hr⟩ := List.mem_iff_getElem?.mp hrow
    obtain ⟨b, hb, bit⟩ := (exists_spriteBit_iff row).mpr notZero
    exact ⟨column (x + b), rowOf (y + r), r, b, row, hr, hb, bit, rfl, rfl⟩

/-- Settles O34: when the first draw did not collide, every pixel of the mask was off. -/
theorem doubleDrawRestores : Obligations.DoubleDrawRestores := by
  intro x y rows fb few
  have hr : rows.length ≤ 32 := few.trans (by decide)
  refine ⟨drawSprite_twice_fb hr, drawSprite_twice_collision hr, fun noCollision => ?_⟩
  have allOff : ∀ px py, maskOn x y rows px py → fb.pix px py = false := by
    intro px py masked
    by_contra on
    have collides := (drawSprite_spec hr fb).2.mpr ⟨px, py, by simpa using on, masked⟩
    simp [noCollision] at collides
  rw [drawSprite_twice_collision hr, ← exists_maskOn_iff (x := x) (y := y)]
  exact exists_congr fun px => exists_congr fun py => and_iff_right_of_imp (allOff px py)

end Sys2Proof.Machine
end

