-- ==== Sys2Proof/Proofs/MemoryBlocks.lean ====
section
/-! PROOF. Block accesses: as chains of one-byte accesses, fetched after a store, and LoadFont (20_memory.md R55, R59,
R61). -/

namespace Sys2Proof.Machine

variable {s : State} {A : Word} {base : Nat}

/-- R55: byte k of a block read is the byte at base + k. -/
theorem Memory.readBytes_getElem? {m : Memory} {n k : Nat} (hk : k < n) :
    (m.readBytes base n)[k]? = some (m.read (base + k)) := by
  have inBlock : k < (m.readBytes base n).length := by rwa [Memory.readBytes_length]
  rw [List.getElem?_eq_getElem inBlock, Memory.readBytes_getElem]

/-- R55: the chain of one-byte writes, from byte k of a block on, is the block write from base + k on. -/
theorem foldlM_memWrite (bs : List Byte) (k : Nat) (s : State) (inside : base + k + bs.length ≤ 0x1000) :
    (bs.zipIdx k).foldlM (fun t bk => memWrite A (base + bk.2) bk.1 t) s =
      .ok (s.setMem (s.mem.writeBytes (base + k) bs)) := by
  induction bs generalizing k s with
  | nil => rfl
  | cons b bs ih =>
    rw [List.length_cons] at inside
    rw [List.zipIdx_cons, List.foldlM_cons, memWrite_inside b (show base + k ≤ 0xFFF by omega)]
    exact ih (k + 1) (s.setMem (s.mem.write (base + k) b)) (by omega)

/-- Settles O30: each byte of the block read has its own access, and the block write is the chain from byte 0 on. -/
theorem blocksAreAscendingOneByteAccesses : Obligations.BlocksAreAscendingOneByteAccesses :=
  ⟨fun _ _ _ _ _ inside hk => ⟨_, Memory.readBytes_getElem? hk, memRead_inside (by omega)⟩,
    fun _ s _ bs inside => foldlM_memWrite bs 0 s inside⟩

/-- Settles O7: both bytes are read back where RegistersAreStored says they are stored, and A + 1 is inside memory. -/
theorem storedBytesAreFetchedNext : Obligations.StoredBytesAreFetchedNext := by
  intro x k hk s A wf fits hkx hA
  obtain ⟨-, stores⟩ := registersAreStored x
  obtain ⟨t, next, stored, -⟩ := (stores s).2 wf fits
  have high : t.mem.read A.toNat = s.reg k := hA ▸ stored k (Fin.le_def.mpr (by omega))
  have low : t.mem.read (A.toNat + 1) = s.reg ⟨k.val + 1, hk⟩ := by
    rw [hA, Nat.add_assoc]
    exact stored ⟨k.val + 1, hk⟩ hkx
  refine ⟨t, next, ?_⟩
  rw [fetch_inside (show A.toNat ≤ 0xFFE by omega), ← high, ← low]
  rfl

/-- Settles O40: LoadFont is one block write at 0x000. -/
theorem fontIsLoadedAtZero : Obligations.FontIsLoadedAtZero := by
  intro f s length wf
  refine ⟨fun i hi => ?_, length ▸ onlyBytes_writeBytes _ f, onlyChanges_setMem _⟩
  rw [getElem?_eq_read_writeBytes wf (length ▸ hi : i < f.length), Nat.zero_add]
  rfl

end Sys2Proof.Machine
end

