-- ==== Sys2Proof/Proofs/Launch.lean ====
section
/-! PROOF. Reset, the host's actions over the system (what is carried out and what is refused), and the launch
(70_reset_and_hazards.md R230, R231; 60_exceptions.md R207; log 8, log 9). -/

namespace Sys2Proof.Machine

variable {y z : System}

/-! ## Reset -/

/-- Settles O43: each element as `State.reset` has it; the files are read entry by entry. -/
theorem resetValues : Obligations.ResetValues := by
  have register (x : Reg) : State.reset.reg x = 0x00 := Vector.getElem_replicate x.isLt
  have entry (j : Fin 16) : State.reset.stack[j] = 0x0000 := Vector.getElem_replicate j.isLt
  have level (k : Key) : State.reset.keyIsDown k = false := Vector.getElem_replicate k.isLt
  exact ⟨reset_read, register, rfl, rfl, rfl, entry, rfl, rfl, rfl, Framebuffer.pix_clear, rfl, level, rfl⟩

/-! ## The host's actions over the system, once each -/

/-- R63: no action of a failed launch is carried out. -/
theorem System.act_failed (failed : y.launch.failed = true) (a : Action) : y.act a = .refused .launchFailed :=
  if_pos failed

/-- R63: a launch of which an action is carried out has not failed. -/
theorem System.not_failed_of_act {a : Action} (h : y.act a = .next z) : y.launch.failed = false := by
  by_contra failed
  rw [System.act_failed (by simpa using failed)] at h
  cases h

section
variable (ok : y.launch.failed = false)
include ok

theorem System.act_step : y.act .step = y.stepAct := by simp [System.act, ok]

theorem System.act_tick : y.act .tick = .next (y.started (tick y.core)) := by simp [System.act, ok]

theorem System.act_keyDown (k : Key) : y.act (.keyDown k) = .next { y with core := keyDown k y.core } := by
  simp [System.act, ok]

theorem System.act_keyUp (k : Key) : y.act (.keyUp k) = .next { y with core := keyUp k y.core } := by
  simp [System.act, ok]

theorem System.act_loadFont (f : List Byte) : y.act (.loadFont f) = y.loadFontAct f := by simp [System.act, ok]

theorem System.act_loadProgram (b : List Byte) : y.act (.loadProgram b) = y.loadProgramAct b := by
  simp [System.act, ok]

end

theorem System.stepAct_cases (h : y.stepAct = .next z) : ∃ t, step y.core = .next t ∧ z = y.started t := by
  unfold System.stepAct at h
  split at h
  · next t ht => exact ⟨t, ht, (Host.Outcome.next.inj h).symm⟩
  · cases h
  · cases h

/-- R61: a LoadFont that is carried out had its 80 bytes. -/
theorem System.loadFontAct_cases {f : List Byte} (h : y.loadFontAct f = .next z) :
    f.length = Config.fontLength ∧ z.core = loadFont f y.core := by
  unfold System.loadFontAct at h
  split_ifs at h with _ _ length
  cases h
  exact ⟨not_not.mp length, rfl⟩

theorem System.loadProgramAct_core {b : List Byte} (h : y.loadProgramAct b = .next z) :
    z.core = (loadProgram b y.core).2 := by
  unfold System.loadProgramAct at h
  split_ifs at h
  cases h
  rfl

/-! ## The launch -/

/-- R231: the core after a launch's two loads, and what LoadProgram answered. -/
theorem System.launchWith_eq {f : List Byte} (length : f.length = 80) (rom : List Byte) : System.launchWith f rom =
    .next ⟨(loadProgram rom (loadFont f State.reset)).2,
      ⟨false, true, some (loadProgram rom (loadFont f State.reset)).1⟩⟩ := by
  simp [System.launchWith, System.acts, System.act, System.reset, Launch.failed, System.loadFontAct,
    System.loadProgramAct, length, Config.fontLength]

/-- R231, D21: both loads are refused once the launch has started. -/
theorem System.loads_refused_of_started (ok : y.launch.failed = false) (started : y.launch.started = true)
    (b : List Byte) : y.act (.loadFont b) = .refused .loadAfterStart ∧
      y.act (.loadProgram b) = .refused .loadAfterStart := by
  rw [System.act_loadFont ok, System.act_loadProgram ok]
  exact ⟨if_pos started, if_pos started⟩

/-- R231, D21: a second LoadFont is refused. -/
theorem System.loadFont_refused_twice (ok : y.launch.failed = false) (started : y.launch.started = false)
    (loaded : y.launch.fontLoaded = true) (f : List Byte) : y.act (.loadFont f) = .refused .fontLoadedTwice := by
  rw [System.act_loadFont ok]
  simp [System.loadFontAct, started, loaded]

/-- R231, D21: a second LoadProgram is refused. -/
theorem System.loadProgram_refused_twice (ok : y.launch.failed = false) (started : y.launch.started = false)
    (loaded : y.launch.loadResult ≠ none) (b : List Byte) :
    y.act (.loadProgram b) = .refused .programLoadedTwice := by
  rw [System.act_loadProgram ok]
  simp [System.loadProgramAct, started, Option.isSome_iff_ne_none, loaded]

/-- R231: a Step or a Tick starts the launch. -/
theorem System.started_of_step_or_tick (h : y.act .step = .next z ∨ y.act .tick = .next z) :
    z.launch.started = true := by
  rcases h with step | tick
  · rw [System.act_step (System.not_failed_of_act step)] at step
    obtain ⟨t, -, rfl⟩ := System.stepAct_cases step
    rfl
  · rw [System.act_tick (System.not_failed_of_act tick)] at tick
    cases tick
    rfl

/-- A part that two changes leave is left by both together. -/
theorem Part.same_trans {p : Part} {s t u : State} (first : p.same s t) (second : p.same t u) : p.same s u := by
  cases p with
  | mem | V | stack | keys => exact fun a => (second a).trans (first a)
  | fb => exact fun px py => (second px py).trans (first px py)
  | I | pc | SP | DT | ST | run | diag | draws => exact second.trans first

/-- R231: a launch whose program fits, all it reaches: the font is below the program, so the second load keeps it. -/
theorem System.launchWith_fits {f rom : List Byte} (length : f.length = 80) (fits : rom.length ≤ 3584) :
    ∃ y, System.launchWith f rom = .next y ∧ y.launch = ⟨false, true, some .ok⟩ ∧
      (∀ i, i < 80 → f[i]? = some (y.core.mem.read i)) ∧
        (∀ i, i < rom.length → rom[i]? = some (y.core.mem.read (0x200 + i))) ∧
          OnlyChanges [.mem] State.reset y.core := by
  obtain ⟨font, -, fontParts⟩ := fontIsLoadedAtZero f State.reset length reset_mem_wf
  have wf : (loadFont f State.reset).mem.wf :=
    Memory.writeBytes_wf reset_mem_wf (by rw [length]; decide)
  obtain ⟨ok, program, programBytes, programParts⟩ :=
    (programIsLoadedOrRefusedWhole rom (loadFont f State.reset)).2 fits wf
  refine ⟨_, System.launchWith_eq length rom, by rw [ok], fun i hi => ?_, program, fun p hp => ?_⟩
  · exact (font i hi).trans (congrArg some (programBytes i (.inl (by omega))).symm)
  · exact Part.same_trans (fontParts p hp) (programParts p hp)

/-- Settles O42: the launch from reset, with a program that fits and with one that does not, and the refusals. -/
theorem launchLoadsOnceBeforeRunning : Obligations.LaunchLoadsOnceBeforeRunning := by
  refine ⟨fun f rom length fits => System.launchWith_fits length fits, fun f rom length long => ?_,
    fun y ok started => System.loads_refused_of_started ok started,
    fun y ok started => ⟨System.loadFont_refused_twice ok started, System.loadProgram_refused_twice ok started⟩,
    fun y z => System.started_of_step_or_tick⟩
  have refused := (programIsLoadedOrRefusedWhole rom (loadFont f State.reset)).1 long
  have tooLarge : (loadProgram rom (loadFont f State.reset)).1 = .romTooLarge rom.length := by rw [refused]
  refine ⟨_, System.launchWith_eq length rom, congrArg some tooLarge, System.act_failed ?_⟩
  simp only [Launch.failed, tooLarge]

end Sys2Proof.Machine
end

