-- ==== Sys2Proof/Proofs/Invariant.lean ====
section
/-! PROOF. The invariant of every run: it holds at reset, and every update that a step or a host action is made of keeps
it (10_state.md R25, R27; 40_flow.md R110; 60_exceptions.md R202, R207). -/

namespace Sys2Proof
open Machine

variable {i : Instr} {s t : State} {r : FaultRecord}

/-! ## The updates that keep the invariant -/

/-- Changes of the parts the invariant does not speak of keep it. -/
theorem Inv.of_eq_withParts (inv : Inv s) (h : t = s.withParts [.V, .I, .DT, .ST, .fb, .keys, .draws] t) : Inv t := by
  rw [h]
  exact ⟨inv.memWf, inv.spLegal, inv.pcBound, inv.stackBound, inv.stackBottom, inv.haltedAtA, inv.diagUnknown⟩

/-- R155: loading a register block. -/
theorem Inv.setRegBlock (inv : Inv s) (bs : List Byte) (j : Nat) : Inv (s.setRegBlock j bs) := by
  rw [(setRegBlock_spec bs j s).1]
  exact inv.of_eq_withParts rfl

theorem Inv.setMem {m : Memory} (inv : Inv s) (wf : m.wf) : Inv (s.setMem m) :=
  ⟨wf, inv.spLegal, inv.pcBound, inv.stackBound, inv.stackBottom, inv.haltedAtA, inv.diagUnknown⟩

/-- R46: a block write inside memory. -/
theorem Inv.setMem_writeBytes {base : Nat} {bs : List Byte} (inv : Inv s) (fits : base + bs.length ≤ Config.memSize) :
    Inv (s.setMem (s.mem.writeBytes base bs)) := inv.setMem (Memory.writeBytes_wf inv.memWf fits)

theorem Inv.setSP {b : Byte} (inv : Inv s) (legal : b.toNat ≤ 15) : Inv (s.setSP b) :=
  ⟨inv.memWf, legal, inv.pcBound, inv.stackBound, inv.stackBottom, inv.haltedAtA, inv.diagUnknown⟩

/-- A core that has not halted may go to any pc within the bound. -/
theorem Inv.setPc {w : Word} (inv : Inv s) (hr : s.run = .running) (bound : w.toNat ≤ 0x10FE) : Inv (s.setPc w) :=
  ⟨inv.memWf, inv.spLegal, bound, inv.stackBound, inv.stackBottom,
    fun r (halted : s.run = .halted r) => by simp [hr] at halted, inv.diagUnknown⟩

/-- R27, R110: a return address may be pushed on any entry but the bottom one. -/
theorem Inv.setStack {j : Fin 16} {w : Word} (inv : Inv s) (hj : j ≠ 0) (bound : w.toNat ≤ 0x1000) :
    Inv (s.setStack j w) where
  memWf := inv.memWf
  spLegal := inv.spLegal
  pcBound := inv.pcBound
  stackBound k := by
    rw [State.setStack_getElem]
    split
    · exact bound
    · exact inv.stackBound k
  stackBottom := ((s.setStack_getElem j w 0).trans (if_neg hj.symm)).trans inv.stackBottom
  haltedAtA := inv.haltedAtA
  diagUnknown := inv.diagUnknown

/-- The sub-state may change to any that is no Halted, or to one with a legal record of this pc. -/
theorem Inv.setRun {run : Run} (inv : Inv s) (legal : ∀ r, run = .halted r → r.fetchAddr = s.pc ∧ FaultRecordLegal r) :
    Inv (s.setRun run) :=
  ⟨inv.memWf, inv.spLegal, inv.pcBound, inv.stackBound, inv.stackBottom, legal, inv.diagUnknown⟩

/-- R202: taking a fault. -/
theorem Inv.takeFault (inv : Inv s) (addr : r.fetchAddr = s.pc) (legal : FaultRecordLegal r) :
    Inv (takeFault r s) := inv.setRun fun r' h => by
  obtain rfl := Run.halted.inj h
  exact ⟨addr, legal⟩

/-- R87: the report of an UNKNOWN word fetched from inside memory. -/
theorem Inv.emit {A w : Word} (inv : Inv s) (unknown : decodeWord w = .unknown w) (inside : A.toNat ≤ 0xFFE) :
    Inv (s.emit A w) :=
  ⟨inv.memWf, inv.spLegal, inv.pcBound, inv.stackBound, inv.stackBottom, inv.haltedAtA, fun e he => by
    rcases List.mem_append.mp he with old | new
    · exact inv.diagUnknown e old
    · obtain rfl := List.mem_singleton.mp new
      exact ⟨unknown, inside⟩⟩

/-! ## An instruction -/

/-- The invariant as a handler is entered (R82, R83): the core runs, and pc is A + 2 for an address A inside memory. -/
structure HandlerInv (s : State) : Prop extends Inv s where
  running : s.run = .running
  pcLow : 2 ≤ s.pc.toNat
  pcHigh : s.pc.toNat ≤ 0x1000

theorem HandlerInv.setPc {w : Word} (inv : HandlerInv s) (bound : w.toNat ≤ 0x10FE) : Inv (s.setPc w) :=
  inv.toInv.setPc inv.running bound

/-- R202: a fault of a handler leaves the core at A. -/
theorem HandlerInv.haltedAt (inv : HandlerInv s) (addr : r.fetchAddr = s.fetchAddr) (legal : FaultRecordLegal r) :
    Inv (haltedAt r s) := by
  have bound : s.fetchAddr.toNat ≤ 0x10FE := by
    have := inv.pcLow; have := inv.pcHigh
    rw [State.fetchAddr]; bv_omega
  exact (inv.setPc bound).takeFault addr legal

/-- R52: a meaning with a range takes the fault or has its own effect. -/
theorem HandlerInv.withRange {base n : Nat} {after : State} (inv : HandlerInv s) (h : withRange base n s after = .next t)
    (ha : n = 0 ∨ base + n ≤ Config.memSize → Inv after) : Inv t := by
  obtain ⟨rfl, fits⟩ | ⟨rfl, -⟩ := withRange_cases h
  · exact ha fits
  · exact inv.haltedAt rfl (le_max_right _ _)

/-- R52: a meaning that stores a block at I. -/
theorem HandlerInv.store {n : Nat} {bs : List Byte} (inv : HandlerInv s) (hn : n ≠ 0) (length : bs.length = n)
    (h : Machine.withRange s.base n s (s.setMem (s.mem.writeBytes s.base bs)) = .next t) : Inv t :=
  inv.withRange h fun fits => inv.setMem_writeBytes (length ▸ fits.resolve_left hn)

/-- R108: a skip goes at most 2 beyond A + 2. -/
theorem HandlerInv.skipIf (inv : HandlerInv s) (c : Bool) : Inv (s.skipIf c) := by
  have := inv.pcHigh
  rw [State.skipIf_eq]
  refine inv.setPc ?_
  split
  · bv_omega
  · omega

/-- R101, R102: an nnn is within the bound. -/
theorem addrOperand_toNat_le (nnn : BitVec 12) : (addrOperand nnn).toNat ≤ 0xFFF := by
  rw [addrOperand_toNat]; omega

/-- R103, R110: the largest pc is 0xFFF + 0xFF. -/
theorem addrOperand_add_toNat_le (nnn : BitVec 12) (b : Byte) : (addrOperand nnn + b.zeroExtend 16).toNat ≤ 0x10FE := by
  rw [addrOperand_add_toNat]; omega

/-- R100: a return. -/
theorem HandlerInv.execRet (inv : HandlerInv s) (h : execRet s = .next t) : Inv t := by
  obtain ⟨empty, rfl⟩ | ⟨notEmpty, inStack, rfl⟩ := execRet_cases h
  · exact inv.haltedAt rfl empty
  · have entry : s.stack[s.SP.toNat].toNat ≤ 0x1000 := inv.stackBound ⟨s.SP.toNat, inStack⟩
    have down : (s.SP - 1).toNat ≤ 15 := by bv_omega
    exact (inv.setPc (by omega)).setSP down

/-- R102: a call. -/
theorem HandlerInv.execCall {nnn : BitVec 12} (inv : HandlerInv s) (h : execCall nnn s = .next t) : Inv t := by
  obtain ⟨full, rfl⟩ | ⟨inStack, rfl⟩ := execCall_cases h
  · exact inv.haltedAt rfl (BitVec.eq_of_toNat_eq full)
  · have up : (s.SP + 1).toNat ≤ 15 := by bv_omega
    have aboveBottom : (⟨s.SP.toNat + 1, inStack⟩ : Fin 16) ≠ 0 := fun h0 => Nat.succ_ne_zero _ (congrArg Fin.val h0)
    exact ((inv.setSP up).setStack aboveBottom inv.pcHigh).setPc inv.running
      ((addrOperand_toNat_le nnn).trans (by decide))

/-- Every instruction keeps the invariant. -/
theorem exec_keeps_inv (inv : HandlerInv s) (h : exec i s = .next t) : Inv t := by
  cases i with
  | cls | ldI _ | ldDTVx _ | ldSTVx _ | addI _ | ldF _ => cases h; exact inv.of_eq_withParts rfl
  | ldImm _ _ | addImm _ _ | ldReg _ _ | orReg _ _ | andReg _ _ | xorReg _ _ | rnd _ _ | ldVxDT _ =>
    cases h; exact inv.of_eq_withParts rfl
  | addReg _ _ | subReg _ _ | shr _ _ | subnReg _ _ | shl _ _ => cases h; exact inv.of_eq_withParts rfl
  | seImm _ _ | sneImm _ _ | seReg _ _ | sneReg _ _ => cases h; exact inv.skipIf _
  | jp nnn => cases h; exact inv.setPc ((addrOperand_toNat_le nnn).trans (by decide))
  | jpV0 nnn => cases h; exact inv.setPc (addrOperand_add_toNat_le nnn (s.reg 0))
  | ldVxK x => cases h; exact inv.setRun nofun
  | ret => exact inv.execRet h
  | call nnn => exact inv.execCall h
  | skp x =>
    obtain ⟨noKey, rfl⟩ | ⟨-, rfl⟩ := execSkp_cases h
    · exact inv.haltedAt rfl noKey
    · exact inv.skipIf _
  | sknp x =>
    obtain ⟨noKey, rfl⟩ | ⟨-, rfl⟩ := execSknp_cases h
    · exact inv.haltedAt rfl noKey
    · exact inv.skipIf _
  | drw _ _ _ => exact inv.withRange h fun _ => inv.of_eq_withParts rfl
  | loadRegs x => exact inv.withRange h fun _ => inv.setRegBlock _ 0
  | ldB x => exact inv.store (by decide) (bcdDigits_length (s.reg x)) h
  | storeRegs x => exact inv.store (Nat.succ_ne_zero _) (regBlock_length s x) h

/-! ## A step -/

/-- R82: a fetch that answers a word was inside memory. -/
theorem pc_le_of_fetch_ok {w : Word} (hf : s.fetch = .ok w) : s.pc.toNat ≤ 0xFFE := by
  by_contra outside
  rw [fetch_outside (by omega)] at hf
  cases hf

/-- R82, R200: a fetch that faults has a legal record. -/
theorem legal_of_fetch_error (hf : s.fetch = .error r) : FaultRecordLegal r := by
  rcases Nat.lt_or_ge s.pc.toNat 0xFFF with inside | outside
  · rw [fetch_inside (Nat.le_of_lt_succ inside)] at hf; cases hf
  · rw [fetch_outside outside] at hf; cases hf; exact le_max_right _ _

/-- R82, R83: the handler of a word fetched from inside memory is entered with pc = A + 2. -/
theorem Inv.advance (inv : Inv s) (hr : s.run = .running) (inside : s.pc.toNat ≤ 0xFFE) : HandlerInv s.advance := by
  have next : (s.pc + 2).toNat = s.pc.toNat + 2 := by bv_omega
  exact ⟨inv.setPc hr (by omega), hr, show 2 ≤ (s.pc + 2).toNat by omega, show (s.pc + 2).toNat ≤ 0x1000 by omega⟩

/-- Every execution of a word fetched from inside memory keeps the invariant (R82, R87). -/
theorem execWord_advance_keeps_inv {w : Word} (inv : Inv s) (hr : s.run = .running) (inside : s.pc.toNat ≤ 0xFFE)
    (h : execWord w s.advance = .next t) : Inv t := by
  have handler := inv.advance hr inside
  obtain ⟨i, -, hi⟩ | ⟨u, hu, rfl⟩ := execWord_cases h
  · exact exec_keeps_inv handler hi
  · obtain rfl := decodeWord_unknown hu
    exact handler.emit hu (by rwa [State.fetchAddr_advance])

/-- Settles O47: a step does nothing, takes the fault of its fetch, or executes the word it fetched. -/
theorem stepKeepsTheInvariant : Obligations.StepKeepsTheInvariant := by
  intro s t inv h
  obtain ⟨-, rfl⟩ | ⟨hr, ⟨r, hf, rfl⟩ | ⟨w, hf, hw⟩⟩ := step_cases h
  · exact inv
  · exact inv.takeFault (fetchAddr_of_fetch_error hf) (legal_of_fetch_error hf)
  · exact execWord_advance_keeps_inv inv hr (pc_le_of_fetch_ok hf) hw

/-! ## The host's other actions -/

theorem Inv.tick (inv : Inv s) : Inv (tick s) := by
  by_cases halted : ∃ r, s.run = .halted r
  · obtain ⟨r, hr⟩ := halted
    rwa [(actions_halted hr 0).1]
  · rw [tick_eq (not_exists.mp halted)]
    exact inv.of_eq_withParts rfl

theorem Inv.keyUp (inv : Inv s) (k : Key) : Inv (keyUp k s) := by
  by_cases halted : ∃ r, s.run = .halted r
  · obtain ⟨r, hr⟩ := halted
    rwa [(actions_halted hr k).2.2]
  · rw [keyUp_eq (not_exists.mp halted)]
    exact inv.of_eq_withParts rfl

theorem Inv.keyDown (inv : Inv s) (k : Key) : Inv (keyDown k s) := by
  cases hr : s.run with
  | running => rw [keyDown_running hr]; exact inv.of_eq_withParts rfl
  | waitKey x =>
    rw [keyDown_waitKey hr]
    exact Inv.setRun (s := (s.setKey k true).setReg x _) (inv.of_eq_withParts rfl) nofun
  | halted r => rwa [(actions_halted hr k).2.1]

/-- R61: 80 bytes from 0x000 on are inside memory. -/
theorem Inv.loadFont {f : List Byte} (inv : Inv s) (length : f.length = Config.fontLength) : Inv (loadFont f s) :=
  inv.setMem_writeBytes (by rw [length]; decide)

/-- R62: 3584 bytes from 0x200 on are inside memory. -/
theorem Inv.loadProgram (inv : Inv s) (b : List Byte) : Inv (loadProgram b s).2 := by
  obtain ⟨-, refused⟩ | ⟨fits, loaded⟩ := loadProgram_cases b s
  · rwa [refused]
  · rw [loaded]
    exact inv.setMem_writeBytes (show 0x200 + b.length ≤ 0x1000 by omega)

/-- Settles O48: the action that is carried out is a step, or one of the host's functions on the core. -/
theorem everyActionKeepsTheInvariant : Obligations.EveryActionKeepsTheInvariant := by
  intro a y z inv h
  have ok := System.not_failed_of_act h
  cases a with
  | step =>
    rw [System.act_step ok] at h
    obtain ⟨t, ht, rfl⟩ := System.stepAct_cases h
    exact stepKeepsTheInvariant y.core t inv ht
  | tick => rw [System.act_tick ok] at h; cases h; exact inv.tick
  | keyDown k => rw [System.act_keyDown ok] at h; cases h; exact inv.keyDown k
  | keyUp k => rw [System.act_keyUp ok] at h; cases h; exact inv.keyUp k
  | loadFont f =>
    rw [System.act_loadFont ok] at h
    obtain ⟨length, core⟩ := System.loadFontAct_cases h
    rw [core]
    exact inv.loadFont length
  | loadProgram b =>
    rw [System.act_loadProgram ok] at h
    rw [System.loadProgramAct_core h]
    exact inv.loadProgram b

/-! ## Reset -/

/-- Settles O46: memory is empty, SP and every stack entry are 0, pc is 0x200, the core runs and the log is empty. -/
theorem resetMeetsTheInvariant : Obligations.ResetMeetsTheInvariant where
  memWf := reset_mem_wf
  spLegal := by decide
  pcBound := by decide
  stackBound := by decide
  stackBottom := rfl
  haltedAtA := nofun
  diagUnknown := nofun

end Sys2Proof
end

