-- ==== Sys2Proof/Proofs/Executions.lean ====
section
/-! PROOF. How an execution can end, what RND and a RET after a CALL do, and two steps: at the idle self-jump and at a
placed word (40_flow.md R100 to R102, 41_alu.md R131, 60_exceptions.md R200, R206, 70_reset_and_hazards.md R233; log 2,
log 3, log 6). -/

namespace Sys2Proof.Machine

variable {i : Instr} {s : State}

/-! ## How an execution can end (R206, log 2) -/

/-- The model's own stop: RET or CALL at an SP that is none of R25's (log 2). -/
def StopsIllegally (i : Instr) (s : State) : Prop :=
  exec i s = .fault (.illegalStackPointer s.SP) ∧ 15 < s.SP.toNat ∧ (i = .ret ∨ ∃ nnn, i = .call nnn)

theorem exec_ret_stop (h : 15 < s.SP.toNat) : exec .ret s = .fault (.illegalStackPointer s.SP) := by
  have notEmpty : s.SP ≠ 0 := by bv_omega
  show execRet s = _
  rw [execRet, if_neg notEmpty, dif_neg (by omega)]

theorem exec_call_stop (nnn : BitVec 12) (h : 15 < s.SP.toNat) :
    exec (.call nnn) s = .fault (.illegalStackPointer s.SP) := by
  show execCall nnn s = _
  rw [execCall, if_neg (by simp only [Config.maxSP]; omega), dif_neg (by omega)]

/-- R100: a return at an SP of 0..15 answers a next state. -/
theorem exec_ret_next (h : s.SP.toNat ≤ 15) : ∃ t, exec .ret s = .next t := by
  by_cases empty : s.SP = 0
  · exact ⟨_, exec_ret_underflow empty⟩
  · exact ⟨_, exec_ret_pop (j := ⟨s.SP.toNat, by omega⟩) (show 0 < s.SP.toNat by bv_omega) rfl⟩

/-- R102: a call at an SP of 0..15 answers a next state. -/
theorem exec_call_next (nnn : BitVec 12) (h : s.SP.toNat ≤ 15) : ∃ t, exec (.call nnn) s = .next t := by
  by_cases full : s.SP = 15
  · exact ⟨_, exec_call_overflow full⟩
  · have room : s.SP.toNat + 1 < 16 := by bv_omega
    exact ⟨_, exec_call_push (j := ⟨s.SP.toNat + 1, room⟩) rfl⟩

/-- R180: a key skip answers a next state, whatever Vx holds. -/
theorem exec_skp_next (x : Reg) (s : State) : ∃ t, exec (.skp x) s = .next t := by
  rcases Nat.lt_or_ge 15 (s.reg x).toNat with noKey | key
  · exact ⟨_, exec_skp_outOfRange noKey⟩
  · exact ⟨_, exec_skp_key (k := ⟨(s.reg x).toNat, by omega⟩) rfl⟩

/-- R181: so does the skip on a key that is up. -/
theorem exec_sknp_next (x : Reg) (s : State) : ∃ t, exec (.sknp x) s = .next t := by
  rcases Nat.lt_or_ge 15 (s.reg x).toNat with noKey | key
  · exact ⟨_, exec_sknp_outOfRange noKey⟩
  · exact ⟨_, exec_sknp_key (k := ⟨(s.reg x).toNat, by omega⟩) rfl⟩

/-- R206: every instruction answers a next state in every state, but for the model's own stop; none is refused. -/
theorem exec_next_or_stopsIllegally (i : Instr) (s : State) : (∃ t, exec i s = .next t) ∨ StopsIllegally i s := by
  cases i with
  | ret =>
    rcases Nat.lt_or_ge 15 s.SP.toNat with illegal | legal
    · exact .inr ⟨exec_ret_stop illegal, illegal, .inl rfl⟩
    · exact .inl (exec_ret_next legal)
  | call nnn =>
    rcases Nat.lt_or_ge 15 s.SP.toNat with illegal | legal
    · exact .inr ⟨exec_call_stop nnn illegal, illegal, .inr ⟨nnn, rfl⟩⟩
    · exact .inl (exec_call_next nnn legal)
  | skp x => exact .inl (exec_skp_next x s)
  | sknp x => exact .inl (exec_sknp_next x s)
  | drw _ _ _ | ldB _ | storeRegs _ | loadRegs _ => exact .inl (withRange_next _ _ _ _)
  | _ => exact .inl ⟨_, rfl⟩

/-- Settles O49: RET and CALL at an SP above 15, and the two ways in which an execution can end. -/
theorem onlyAnIllegalStackPointerStops : Obligations.OnlyAnIllegalStackPointerStops := by
  refine ⟨fun nnn s h => ⟨exec_ret_stop h, exec_call_stop nnn h⟩, fun i s => ?_⟩
  obtain ⟨t, next⟩ | ⟨stop, illegal, which⟩ := exec_next_or_stopsIllegally i s
  · rw [next]
    exact ⟨nofun, nofun⟩
  · rw [stop]
    refine ⟨nofun, fun f hf => ?_⟩
    cases hf
    exact ⟨rfl, illegal, which⟩

/-- R25, R206: with a legal SP an execution answers a next state. -/
theorem exec_next_of_legal_SP (i : Instr) (h : s.SP.toNat ≤ 15) : ∃ t, exec i s = .next t :=
  (exec_next_or_stopsIllegally i s).resolve_right fun ⟨_, illegal, _⟩ => absurd h illegal.not_ge

/-- R87: so does the execution of any word. -/
theorem execWord_next_of_legal_SP (w : Word) (h : s.SP.toNat ≤ 15) : ∃ t, execWord w s = .next t := by
  unfold execWord
  split
  · exact exec_next_of_legal_SP _ h
  · exact ⟨_, rfl⟩

/-- Settles O50: a step does nothing, takes the fault of its fetch, or executes a word at a legal SP. -/
theorem legalStatesAlwaysStep : Obligations.LegalStatesAlwaysStep := by
  intro s inv
  cases hr : s.run with
  | halted r => exact ⟨_, step_halted hr⟩
  | waitKey x => exact ⟨_, step_waitKey hr⟩
  | running =>
    cases hf : s.fetch with
    | error r => exact ⟨_, step_of_fetch_error hr hf⟩
    | ok w =>
      rw [step_of_fetch_ok hr hf]
      exact execWord_next_of_legal_SP w inv.spLegal

/-- Settles O9: an instruction that halts a running core took its own fault. -/
theorem eachInstructionRaisesOneFaultKind : Obligations.EachInstructionRaisesOneFaultKind := by
  intro i s t r running h halted
  obtain ⟨precise, raised⟩ := exec_halts running h halted
  exact ⟨raised.kind, raised.fetchAddr, raised.legal, precise⟩

/-! ## RND, and RET after CALL -/

/-- Settles O24: format XK with opcode nibble C, and the one register written, bit by bit. -/
theorem randomByteIsMasked : Obligations.RandomByteIsMasked := by
  refine fun x kk => ⟨decodeWord_wordXK decodeWord_opC x kk, fun s =>
    ⟨_, rfl, fun b _ => ?_, rfl, exec_onlyRegs (i := .rnd x kk) rfl, onlyChanges_of_eq_withParts rfl⟩⟩
  rw [State.reg_countDraw, State.reg_setReg_self, BitVec.getLsbD_and]
  rfl

/-- Settles O17: the return pops the entry that the call pushed, at the SP that the call left. -/
theorem returnUndoesCall : Obligations.ReturnUndoesCall := by
  intro nnn s p room
  have inStack : s.SP.toNat + 1 < 16 := by omega
  have up : (s.SP + 1).toNat = s.SP.toNat + 1 := by bv_omega
  have pushed := State.setStack_getElem (s.setSP (s.SP + 1)) ⟨s.SP.toNat + 1, inStack⟩ s.pc ⟨s.SP.toNat + 1, inStack⟩
  exact ⟨_, _, exec_call_push (j := ⟨s.SP.toNat + 1, inStack⟩) rfl, exec_ret_pop (j := ⟨s.SP.toNat + 1, inStack⟩)
    (Nat.succ_pos _) up, pushed.trans (if_pos rfl), BitVec.add_sub_cancel s.SP 1⟩

/-! ## The idle self-jump (R233) -/

/-- An address inside memory is its low twelve bits, zero-extended (R73). -/
theorem addrOperand_setWidth {E : Word} (h : E.toNat < 0x1000) : addrOperand (E.setWidth 12) = E := by
  apply BitVec.eq_of_toNat_eq
  rw [addrOperand_toNat, BitVec.toNat_setWidth]
  exact Nat.mod_eq_of_lt h

/-- R101: the word 0x1000 | E is JP E. -/
theorem decodeWord_selfJump {E : Word} (h : E.toNat < 0x1000) :
    decodeWord (0x1000 ||| E) = .known (.jp (E.setWidth 12)) := by
  have word : wordA 0x1000 (E.setWidth 12) = 0x1000 ||| E := congrArg (0x1000 ||| ·) (addrOperand_setWidth h)
  rw [← word]
  exact decodeWord_wordA decodeWord_op1 _

/-- R233: a step at the idle address jumps to the address it was fetched from. -/
theorem step_of_endedWell {E : Word} (h : EndedWell E s) : step s = .next s := by
  obtain ⟨inside, word, running, rfl⟩ := h
  have fetched : s.fetch = .ok (0x1000 ||| s.pc) := by rw [fetch_inside inside, word]
  have low : s.pc.toNat < 0x1000 := by omega
  rw [step_of_fetch_ok running fetched, execWord_known (decodeWord_selfJump low)]
  show Host.Outcome.next (s.advance.setPc (addrOperand (s.pc.setWidth 12))) = _
  rw [addrOperand_setWidth low]
  rfl

/-- Settles O51: the step jumps to where it stands, and a Tick outside Halted changes the timers alone. -/
theorem idleSelfJumpIsAFixedPoint : Obligations.IdleSelfJumpIsAFixedPoint := by
  intro E s h
  have notHalted : ∀ r, s.run ≠ .halted r := fun r hr => not_endedWell_of_halted hr E h
  obtain ⟨-, -, -, timers⟩ := (tickCountsDown s).2 notHalted
  refine ⟨step_of_endedWell h, ?_, timers⟩
  rw [tick_eq notHalted]
  exact h

/-! ## A placed word (log 6) -/

/-- A table word's instruction is what the decoder gives for the word. -/
theorem decodeWord_of_decodeTableWord {nbits w : Nat} {i : Instr} (h : decodeTableWord nbits w = some i) :
    decodeWord (BitVec.ofNat 16 (w % 2 ^ nbits)) = .known i := by
  simp only [decodeTableWord, decode, joinBytes_hi_lo] at h
  cases hd : decodeWord (BitVec.ofNat 16 (w % 2 ^ nbits)) with
  | known j => rw [hd] at h; cases h; rfl
  | unknown u => rw [hd] at h; cases h

/-- Settles O54: the core runs, fetches the word placed, and executes it as its instruction. -/
theorem placedWordRunsNext : Obligations.PlacedWordRunsNext := by
  intro s w i wf h
  have fetched : (s.withFetchWord 16 w).fetch = .ok (BitVec.ofNat 16 (w % 2 ^ 16)) := fetch_placeFetchWord _ wf
  rw [step_of_fetch_ok rfl fetched, execWord_known (decodeWord_of_decodeTableWord h)]

end Sys2Proof.Machine
end

