-- ==== Sys2Proof/Proofs/Unread.lean ====
section
/-! PROOF. What no instruction reads: the log, and ST (10_state.md R29, R34). A state whose ST and log are replaced runs
the same, and ends with them replaced. -/

namespace Sys2Proof.Machine

variable {i : Instr} {s t : State}

/-- s with its ST and its log replaced by functions of themselves. -/
def State.mapUnread (f : Byte → Byte) (g : List DiagEntry → List DiagEntry) (s : State) : State :=
  { s with ST := f s.ST, diag := g s.diag }

/-- An execution's end with its next state mapped. -/
def mapNext (f : State → State) : Result → Result
  | .next t => .next (f t)
  | .fault r => .fault r
  | .refused q => .refused q

section
variable (f : Byte → Byte) (g : List DiagEntry → List DiagEntry)

theorem State.skipIf_mapUnread (c : Bool) : (s.mapUnread f g).skipIf c = (s.skipIf c).mapUnread f g := by
  cases c <;> rfl

theorem State.setRegBlock_mapUnread (bs : List Byte) (j : Nat) (s : State) :
    (s.mapUnread f g).setRegBlock j bs = (s.setRegBlock j bs).mapUnread f g := by
  induction bs generalizing j s with
  | nil => rfl
  | cons b bs ih =>
    simp only [State.setRegBlock]
    split
    · next hj => exact ih (j + 1) (s.setReg ⟨j, hj⟩ b)
    · exact ih (j + 1) s

/-- R52: the range check and its fault read neither. -/
theorem withRange_mapUnread (base n : Nat) (s after : State) : withRange base n (s.mapUnread f g) (after.mapUnread f g) =
    mapNext (State.mapUnread f g) (withRange base n s after) := by
  have sameAddr : (s.mapUnread f g).fetchAddr = s.fetchAddr := rfl
  unfold withRange
  rw [sameAddr]
  cases rangeFault s.fetchAddr base n <;> rfl

theorem execRet_mapUnread : execRet (s.mapUnread f g) = mapNext (State.mapUnread f g) (execRet s) := by
  have sameSP : (s.mapUnread f g).SP = s.SP := rfl
  simp only [execRet, sameSP]
  split_ifs <;> rfl

theorem execCall_mapUnread (nnn : BitVec 12) :
    execCall nnn (s.mapUnread f g) = mapNext (State.mapUnread f g) (execCall nnn s) := by
  have sameSP : (s.mapUnread f g).SP = s.SP := rfl
  simp only [execCall, sameSP]
  split_ifs <;> rfl

theorem execSkp_mapUnread (x : Reg) : execSkp x (s.mapUnread f g) = mapNext (State.mapUnread f g) (execSkp x s) := by
  have sameKey : (s.mapUnread f g).keyOperand x = s.keyOperand x := rfl
  simp only [execSkp, sameKey, State.skipIf_mapUnread]
  cases s.keyOperand x <;> rfl

theorem execSknp_mapUnread (x : Reg) : execSknp x (s.mapUnread f g) = mapNext (State.mapUnread f g) (execSknp x s) := by
  have sameKey : (s.mapUnread f g).keyOperand x = s.keyOperand x := rfl
  simp only [execSknp, sameKey, State.skipIf_mapUnread]
  cases s.keyOperand x <;> rfl

/-- R29, R34: an instruction other than Fx18, which writes ST, neither reads nor writes ST and the log. -/
theorem exec_mapUnread (hi : ∀ x, i ≠ .ldSTVx x) (s : State) :
    exec i (s.mapUnread f g) = mapNext (State.mapUnread f g) (exec i s) := by
  cases i with
  | ldSTVx x => exact absurd rfl (hi x)
  | seImm _ _ | sneImm _ _ | seReg _ _ | sneReg _ _ =>
    exact congrArg Host.Outcome.next (State.skipIf_mapUnread f g _)
  | ret => exact execRet_mapUnread f g
  | call nnn => exact execCall_mapUnread f g nnn
  | skp x => exact execSkp_mapUnread f g x
  | sknp x => exact execSknp_mapUnread f g x
  | drw _ _ _ | ldB _ | storeRegs _ =>
    refine .trans ?_ (withRange_mapUnread f g _ _ s _)
    rfl
  | loadRegs x =>
    refine .trans ?_ (withRange_mapUnread f g _ _ s _)
    rw [← State.setRegBlock_mapUnread]
    rfl
  | _ => rfl

end

/-- Settles O53: every instruction but Fx18 runs the same with another ST; Fx18 overwrites it. -/
theorem soundTimerIsNeverRead : Obligations.SoundTimerIsNeverRead := by
  refine fun i s t v h => ⟨?_, fun hi => ?_⟩
  · rintro ⟨x, rfl⟩
    exact h
  · exact (exec_mapUnread (fun _ => v) id hi s).trans (congrArg (mapNext _) h)

/-! ## The log -/

/-- R34: with the log replaced, every instruction runs the same. -/
theorem exec_withLog (h : exec i s = .next t) (d : List DiagEntry) :
    exec i { s with diag := d } = .next { t with diag := d } := by
  by_cases hi : ∃ x, i = .ldSTVx x
  · obtain ⟨x, rfl⟩ := hi
    cases h
    rfl
  · exact (exec_mapUnread id (fun _ => d) (not_exists.mp hi) s).trans (congrArg (mapNext _) h)

/-- R34: no instruction writes the log, whether it faults or not. -/
theorem exec_diag (h : exec i s = .next t) : t.diag = s.diag := by
  obtain ⟨r, rfl, -⟩ | unchanged := exec_faultsOrWritesNamed h
  · rfl
  · exact unchanged .diag (by cases i <;> simp [Instr.writes])

/-- What LogIsNeverRead says of one action: it appends at most one report, and with any other log before it does the
same to every other part and appends the same. -/
def OnlyAppendsToLog (run : State → Result) (s t : State) : Prop :=
  ∃ new : List DiagEntry, new.length ≤ 1 ∧ t.diag = s.diag ++ new ∧
    ∀ d : List DiagEntry, run { s with diag := d } = .next { t with diag := d ++ new }

/-- An action that leaves the log and does not read it. -/
theorem onlyAppendsToLog_of_unread {run : State → Result} (kept : t.diag = s.diag)
    (same : ∀ d, run { s with diag := d } = .next { t with diag := d }) : OnlyAppendsToLog run s t :=
  ⟨[], Nat.zero_le 1, by rw [kept, List.append_nil], fun d => by rw [List.append_nil]; exact same d⟩

/-- R34, R87: an UNKNOWN word appends its report, every other word nothing. -/
theorem execWord_onlyAppendsToLog {w : Word} (h : execWord w s = .next t) : OnlyAppendsToLog (execWord w) s t := by
  obtain ⟨i, hd, hi⟩ | ⟨u, hd, rfl⟩ := execWord_cases h
  · exact onlyAppendsToLog_of_unread (exec_diag hi) fun d => (execWord_known hd).trans (exec_withLog hi d)
  · refine ⟨[⟨s.fetchAddr, u⟩], le_rfl, rfl, fun d => ?_⟩
    simp only [execWord, hd]
    rfl

/-- Settles O52: a step that executes nothing leaves the log, and so does a fault of its fetch; a step that executes a
word appends what the word does. -/
theorem logIsNeverRead : Obligations.LogIsNeverRead := by
  intro s t h
  show OnlyAppendsToLog step s t
  cases hr : s.run with
  | halted r =>
    obtain rfl := Host.Outcome.next.inj ((step_halted hr).symm.trans h)
    exact onlyAppendsToLog_of_unread rfl fun d => step_halted hr
  | waitKey x =>
    obtain rfl := Host.Outcome.next.inj ((step_waitKey hr).symm.trans h)
    exact onlyAppendsToLog_of_unread rfl fun d => step_waitKey hr
  | running =>
    cases hf : s.fetch with
    | error r =>
      obtain rfl := Host.Outcome.next.inj ((step_of_fetch_error hr hf).symm.trans h)
      exact onlyAppendsToLog_of_unread rfl fun d => step_of_fetch_error hr hf
    | ok w =>
      obtain ⟨new, one, appended, same⟩ := execWord_onlyAppendsToLog ((step_of_fetch_ok hr hf).symm.trans h)
      exact ⟨new, one, appended, fun d => (step_of_fetch_ok (s := { s with diag := d }) hr hf).trans (same d)⟩

end Sys2Proof.Machine
end
